-- ==== Sys2Proof/Syntax.lean ====
section
/-! DEFINITION. The instructions: one constructor per row of spec/opcode_table.json, the ten
instructions of 00_scope.md R2 and the three illegal ranges of 30_encoding.md R67. -/

namespace Sys2Proof

/-- An instruction with its two operand digits `a` (30_encoding.md R60, R62). HLT and the illegal rows
keep the digits they ignore, so that each of the 1000 words is one instruction and no digit of a word
is lost in decoding (log entry 8). -/
inductive Instr where
  /-- HLT, words 000-099; the operand digits are ignored (R64, R130). -/
  | hlt (a : Nat)
  /-- ADD, words 100-199 (R100). -/
  | add (a : Nat)
  /-- SUB, words 200-299 (R101). -/
  | sub (a : Nat)
  /-- STA, words 300-399 (R111). -/
  | sta (a : Nat)
  /-- Words 400-499: the reserved opcode, illegal at run time (R66, R93). -/
  | illegal4xx (a : Nat)
  /-- LDA, words 500-599 (R110). -/
  | lda (a : Nat)
  /-- BRA, words 600-699 (R120). -/
  | bra (a : Nat)
  /-- BRZ, words 700-799 (R121). -/
  | brz (a : Nat)
  /-- BRP, words 800-899 (R122). -/
  | brp (a : Nat)
  /-- Word 900: opcode 9 with operand 00, illegal (R65, R93). -/
  | illegal900
  /-- INP, word 901 (R131). -/
  | inp
  /-- OUT, word 902 (R132). -/
  | out
  /-- Words 903-999: opcode 9 with operand 03-99, illegal (R65, R93). -/
  | illegal9xx (a : Nat)
  deriving DecidableEq, Repr

end Sys2Proof
end

