-- ==== Sys2Proof/WellFormed.lean ====
section
/-! DEFINITION. Which instructions have a word: the operand is two decimal digits (30_encoding.md R60),
and the last illegal row covers the operands 03-99 (R63). -/

namespace Sys2Proof

/-- Two decimal digits: 0..99 (R60). -/
def twoDigits (a : Nat) : Bool := decide (a ≤ 99)

/-- The instruction is one of those the decoder can give (R63, R68). -/
def Instr.wellFormed : Instr → Bool
  | .hlt a => twoDigits a
  | .add a => twoDigits a
  | .sub a => twoDigits a
  | .sta a => twoDigits a
  | .illegal4xx a => twoDigits a
  | .lda a => twoDigits a
  | .bra a => twoDigits a
  | .brz a => twoDigits a
  | .brp a => twoDigits a
  | .illegal900 => true
  | .inp => true
  | .out => true
  | .illegal9xx a => decide (3 ≤ a) && twoDigits a

end Sys2Proof
end

