-- ==== Sys2Proof/Word.lean ====
section
/-! DEFINITION. The three-digit decimal word: what a Memory Store cell, the accumulator and a queue
entry hold (00_scope.md R7, R9). The spec has no bits and no bytes (20_memory.md R44), so a word is a
number below 1000 and nothing else (log entry 1). -/

namespace Sys2Proof

/-- A cell value: an integer in [0, 999] (R9, R27). -/
abbrev Word := Fin 1000

end Sys2Proof
end

