-- ==== Sys2Proof/Decode.lean ====
section
/-! DEFINITION. The decoder of 30_encoding.md R61 and R68, and after it the encoder of R60 and R70. A
word is a decimal number; the spec has no bits and no byte order (20_memory.md R44). -/

namespace Sys2Proof

/-- The hundreds digit, `w div 100` (R61). -/
def opcodeOf (w : Word) : Nat := w.val / 100

/-- The two low digits, `w mod 100` (R61). -/
def operandOf (w : Word) : Nat := w.val % 100

/-- Opcode 9: its operand is a sub-code, 01 for INP and 02 for OUT, and every other is illegal (R65). -/
def decodeNine (a : Nat) : Instr :=
  match a with
  | 0 => .illegal900
  | 1 => .inp
  | 2 => .out
  | _ => .illegal9xx a

/-- The case of R68 on the opcode digit. An opcode is 0..9, so the last arm is opcode 9. -/
def decodeDigits (op a : Nat) : Instr :=
  match op with
  | 0 => .hlt a
  | 1 => .add a
  | 2 => .sub a
  | 3 => .sta a
  | 4 => .illegal4xx a
  | 5 => .lda a
  | 6 => .bra a
  | 7 => .brz a
  | 8 => .brp a
  | _ => decodeNine a

/-- The decoder, a total function on [0, 999] (R68). -/
def decodeWord (w : Word) : Instr := decodeDigits (opcodeOf w) (operandOf w)

/-- Why a number is no instruction word. -/
inductive DecodeReject where
  /-- The number is above 999: no cell can hold it (R60). -/
  | aboveWordRange (w : Nat)
  deriving DecidableEq, Repr

/-- The decoder on any number: numbers above 999 are rejected by name (R60, R68). -/
def decode (w : Nat) : Except DecodeReject Instr :=
  if h : w < 1000 then .ok (decodeWord ⟨w, h⟩) else .error (.aboveWordRange w)

/-- The word of an instruction, `opcode * 100 + operand` (R60, R61, R70). -/
def encode : Instr → Nat
  | .hlt a => 0 * 100 + a
  | .add a => 1 * 100 + a
  | .sub a => 2 * 100 + a
  | .sta a => 3 * 100 + a
  | .illegal4xx a => 4 * 100 + a
  | .lda a => 5 * 100 + a
  | .bra a => 6 * 100 + a
  | .brz a => 7 * 100 + a
  | .brp a => 8 * 100 + a
  | .illegal900 => 9 * 100 + 0
  | .inp => 9 * 100 + 1
  | .out => 9 * 100 + 2
  | .illegal9xx a => 9 * 100 + a

/-- The inclusive range of words of the instruction's row in spec/opcode_table.json (R63). -/
def rowRange : Instr → Nat × Nat
  | .hlt _ => (0, 99)
  | .add _ => (100, 199)
  | .sub _ => (200, 299)
  | .sta _ => (300, 399)
  | .illegal4xx _ => (400, 499)
  | .lda _ => (500, 599)
  | .bra _ => (600, 699)
  | .brz _ => (700, 799)
  | .brp _ => (800, 899)
  | .illegal900 => (900, 900)
  | .inp => (901, 901)
  | .out => (902, 902)
  | .illegal9xx _ => (903, 999)

/-- The instruction the decoder reads from the word `w`. An instruction is one cell holding one number
(R60), so the word is `w` itself, whatever number of bits the caller counts for it (log entry 9). -/
def decodeTableWord (_nbits w : Nat) : Option Instr :=
  match decode w with
  | .ok i => some i
  | .error _ => none

end Sys2Proof
end

