-- ==== Sys2Proof/Machine/Flags.lean ====
section
/-! DEFINITION. The ALU's two operations with the Positive Flag each leaves (41_arithmetic.md R100 to
R103), and the accumulator test of BRZ (43_control.md R121). The exact sum or difference is computed
on integers and folded back into [0, 999]. -/

namespace Sys2Proof.Machine

/-- ADD: the sum folded back into [0, 999], and the flag, `false` exactly when the sum exceeds 999
(R100; 90_conflicts.md C1). -/
def aluAdd (x m : Word) : Word × Bool :=
  if h : x.val + m.val > 999 then (⟨x.val + m.val - 1000, by omega⟩, false)
  else (⟨x.val + m.val, by omega⟩, true)

/-- SUB: the difference folded back into [0, 999], and the flag, `false` exactly when the difference is
negative; zero counts as positive (R101; 90_conflicts.md C2). -/
def aluSub (x m : Word) : Word × Bool :=
  if h : (x.val : Int) - m.val < 0 then (⟨((x.val : Int) - m.val + 1000).toNat, by omega⟩, false)
  else (⟨((x.val : Int) - m.val).toNat, by omega⟩, true)

/-- BRZ's test, on the accumulator itself and not on the flag (R121). -/
def isZero (x : Word) : Bool := decide (x = 0)

end Sys2Proof.Machine
end

