-- ==== Sys2Proof/Config.lean ====
section
/-! DEFINITION. What is fixed for the machine (00_scope.md R7), and the free values: the register
contents of a freshly constructed engine, which the spec leaves unknown (70_reset_and_hazards.md R172). -/

namespace Sys2Proof

/-- `MEM_CELLS` of R7: the number of Memory Store cells, at addresses 0..99. -/
abbrev Config.memCells : Nat := 100

/-- FREE VALUE (log entry 5): the accumulator before the first `load_program`; R172 gives none. -/
opaque Config.constructedAcc : Word

/-- FREE VALUE (log entry 5): the program counter before the first `load_program`, in the range 0..100
of R21; R172 gives no value. -/
opaque Config.constructedPc : Fin 101

/-- FREE VALUE (log entry 5): the Positive Flag before the first `load_program`; R172 gives none. -/
opaque Config.constructedPflag : Bool

/-- FREE VALUE (log entry 5): the Halted flag before the first `load_program`; R172 gives none. -/
opaque Config.constructedHalted : Bool

/-- FREE VALUE (log entry 5): the output queue before the first `load_program`; R172 gives none. -/
opaque Config.constructedOutq : List Word

end Sys2Proof
end

