-- ==== Sys2Proof/Machine/State.lean ====
section
/-! DEFINITION. The state of the core, as plain data (10_state.md R20 to R32), the reasons a step can
stop, the state of a fresh engine and the state after reset. -/

namespace Sys2Proof.Machine

/-- The fault cause of R25 and R141: the run-time error that stopped the core. -/
inductive FaultCause where
  /-- NONE: no fault. -/
  | none
  /-- MEMORY: `MemoryError`, a fetch with `pc` outside [0, 99] (R90). -/
  | memory
  /-- INPUT_EMPTY: `InputError`, INP on an empty queue (R131). -/
  | inputEmpty
  /-- ILLEGAL: `IllegalInstructionError` (R93). -/
  | illegal
  deriving DecidableEq, Repr

/-- The Memory Store as (address, word) pairs; an address that is not listed reads 0 (R27, R171; log
entries 1 and 2). -/
abbrev Memory := List (Nat × Word)

/-- Everything the spec gives the core (R32), and the model's own `loaded`. -/
structure State where
  /-- The accumulator (R20). -/
  acc : Word
  /-- The program counter, 0..100 (R21); the bound is part of the invariant (log entry 8). -/
  pc : Nat
  /-- The Positive Flag (R23). -/
  pflag : Bool
  /-- The Halted flag (R24). -/
  halted : Bool
  /-- The fault cause (R25). -/
  fault : FaultCause
  /-- The Memory Store (R27). -/
  mem : Memory
  /-- The input queue, front first (R28). -/
  inq : List Word
  /-- The output queue, oldest first (R29). -/
  outq : List Word
  /-- The MODEL's own field (log entry 4): a `load_program` has succeeded, so the state is not the
  *unloaded* one of R26 and R172. -/
  loaded : Bool
  deriving DecidableEq, Repr

/-- Why a core takes no step. The run-time errors of the spec are NOT here: a step that raises one
answers a next state whose `fault` field records it (R142; log entry 6). -/
inductive Fault where
  /-- Raised by `step` (`whenReady`) on a halted core, which takes no step (R146). Safe: the spec
  gives no next state. -/
  | haltedCore
  /-- Raised by `step` (`whenReady`) on a faulted core, which takes no step (R146). Safe: the spec
  gives no next state. -/
  | faultedCore (cause : FaultCause)
  deriving DecidableEq, Repr

/-- Why the model gives no outcome. -/
inductive Refusal where
  /-- An instruction without a meaning yet: no arm of `exec` raises it. Safe. -/
  | notModelled (mnemonic : String)
  /-- Raised by `step` (`whenReady`) and by the host's `run` before the first successful
  `load_program`: the spec gives that state no step (R26, R172). Safe. -/
  | unloaded
  /-- Raised by `hostAct`: the host has no move while `run()` is in progress (R176). Safe. -/
  | hostDuringRun
  deriving DecidableEq, Repr

/-- A freshly constructed engine's core, the *unloaded* state of R172: memory all 0, an empty input
queue, no fault; the other registers are free values (log entry 5). -/
def State.constructed : State where
  acc := Config.constructedAcc
  pc := Config.constructedPc.val
  pflag := Config.constructedPflag
  halted := Config.constructedHalted
  fault := .none
  mem := []
  inq := []
  outq := Config.constructedOutq
  loaded := false

/-- The core right after reset: what a successful `load_program` of the empty image leaves on a fresh
engine (R171, R32; log entry 3). -/
def State.reset : State where
  acc := 0
  pc := 0
  pflag := true
  halted := false
  fault := .none
  mem := []
  inq := []
  outq := []
  loaded := true

end Sys2Proof.Machine
end

