-- ==== Sys2Proof/Machine/Ops.lean ====
section
/-! DEFINITION. The named operations over memory and registers, taking a run-time fault as one shared
operation (60_exceptions.md R142), the run status (10_state.md R26) and the fetch
(40_fetch_decode.md R90, R91). -/

namespace Sys2Proof.Machine

/-- The three outcomes of this core's step or of one instruction. -/
abbrev Result := Host.Outcome State Fault Refusal

/-! ### The Memory Store -/

/-- The address names a cell: 0..99 (R40). -/
def inStore (a : Nat) : Bool := decide (a < Config.memCells)

/-- The value of cell `a` (R41); a cell that is not listed holds 0 (R171). -/
def Memory.read : Memory → Nat → Word
  | [], _ => 0
  | (b, v) :: rest, a => if a = b then v else Memory.read rest a

/-- The list without its entries at `a`. -/
def Memory.erase (m : Memory) (a : Nat) : Memory := m.filter fun p => p.1 != a

/-- Places an entry before the first one with a higher address. -/
def Memory.insert : Memory → Nat → Word → Memory
  | [], a, v => [(a, v)]
  | (b, u) :: rest, a, v => if a < b then (a, v) :: (b, u) :: rest else (b, u) :: Memory.insert rest a v

/-- Sets cell `a` to `v` (R42). Writing 0 leaves no entry, so equal memories are equal lists (log
entry 2). -/
def Memory.write (m : Memory) (a : Nat) (v : Word) : Memory :=
  if v = 0 then Memory.erase m a else Memory.insert (Memory.erase m a) a v

/-- The canonical form: addresses strictly rising and in the store, no entry that holds 0. -/
abbrev Memory.wf (m : Memory) : Prop :=
  m.Pairwise (fun p q => p.1 < q.1) ∧ ∀ p ∈ m, p.1 ≤ 99 ∧ p.2 ≠ 0

/-! ### The registers and the queues: one writer each -/

/-- `acc <- v` (R20). -/
def State.setAcc (s : State) (v : Word) : State := { s with acc := v }
/-- `pc <- p` (R21). -/
def State.setPc (s : State) (p : Nat) : State := { s with pc := p }
/-- `pflag <- b` (R23). -/
def State.setPflag (s : State) (b : Bool) : State := { s with pflag := b }
/-- `halted <- b` (R24). -/
def State.setHalted (s : State) (b : Bool) : State := { s with halted := b }
/-- `fault <- c` (R25). -/
def State.setFault (s : State) (c : FaultCause) : State := { s with fault := c }
/-- The Memory Store replaced (R27). -/
def State.setMem (s : State) (m : Memory) : State := { s with mem := m }
/-- `inq <- q` (R28). -/
def State.setInq (s : State) (q : List Word) : State := { s with inq := q }
/-- `outq <- q` (R29). -/
def State.setOutq (s : State) (q : List Word) : State := { s with outq := q }
/-- `pc <- pc + 1`, from 99 to 100 without a wrap (R21, R22). -/
def State.advance (s : State) : State := s.setPc (s.pc + 1)

/-! ### Taking a run-time fault -/

/-- The cause codes of R25 and R141; they are the spec's own labels (D5). -/
def FaultCause.code : FaultCause → Nat
  | .none => 0
  | .memory => 1
  | .inputEmpty => 2
  | .illegal => 3

/-- `raise E`: `fault <- code(E)` and no other write of the step (R142). There is no handler, no saved
register and no return from a fault (R148): the core simply takes no further step. -/
def raiseFault (c : FaultCause) (s : State) : Result := .next (s.setFault c)

/-- The faulting address of a faulted core is its `pc` (R141). -/
def faultAddress (s : State) : Nat := s.pc

/-- The word of a core that faulted on an instruction is `M[pc]` (R141). -/
def faultWord (s : State) : Word := Memory.read s.mem s.pc

/-! ### Status and fetch -/

/-- The run status of R26, a function of the state, and the unloaded state of R172. -/
inductive RunStatus where
  | unloaded
  | faulted (cause : FaultCause)
  | halted
  | ready
  deriving DecidableEq, Repr

/-- R26: *faulted* when `fault` is not NONE, otherwise *halted* when `halted`, otherwise *ready*;
before the first `load_program`, *unloaded*. -/
def State.status (s : State) : RunStatus :=
  match s.loaded, s.fault, s.halted with
  | false, _, _ => .unloaded
  | true, .none, false => .ready
  | true, .none, true => .halted
  | true, c, _ => .faulted c

/-- A step is taken only when the core is ready (R94); a stopped core takes none (R146), and the
unloaded state has none (R172). -/
def whenReady (s : State) (k : Result) : Result :=
  match s.status with
  | .ready => k
  | .halted => .fault .haltedCore
  | .faulted c => .fault (.faultedCore c)
  | .unloaded => .refused .unloaded

/-- The fetch check of R90, then the fetch of R91: the step goes on with the word `M[pc]`, or raises
`MemoryError` when `pc` is outside [0, 99], and no cell is read. -/
def withFetched (s : State) (k : Word → Result) : Result :=
  if inStore s.pc then k (Memory.read s.mem s.pc) else raiseFault .memory s

/-- `s` made ready with the word `w` where it fetches next, standing for the host's load of a program
(log entries 3 and 9). A number above 999 is no word and changes nothing. -/
def placeFetchWord (s : State) (w : Nat) : State :=
  if h : w < 1000 then
    let p := if inStore s.pc then s.pc else 0
    { s with pc := p, mem := Memory.write s.mem p ⟨w, h⟩, halted := false, fault := .none, loaded := true }
  else s

end Sys2Proof.Machine
end

