-- ==== Sys2Proof/Machine/Operands.lean ====
section
/-! DEFINITION. The operand forms: the one addressing mode is absolute direct (42_load_store.md,
30_encoding.md R62), read and written with the bounds check of 20_memory.md R41 and R42; and the
absolute branch target (43_control.md). -/

namespace Sys2Proof.Machine

/-- `MemRead(a, 1)`, then the rest of the instruction with the value read (R41). A data address above
99 raises `MemoryError`; no decoded instruction has one (R43). -/
def withCell (a : Nat) (s : State) (k : Word → Result) : Result :=
  if inStore a then k (Memory.read s.mem a) else raiseFault .memory s

/-- `MemWrite(a, 1, v)`, then the rest of the instruction with the state after it (R42). -/
def intoCell (a : Nat) (v : Word) (s : State) (k : State → Result) : Result :=
  if inStore a then k (s.setMem (Memory.write s.mem a v)) else raiseFault .memory s

/-- An absolute branch target: `pc <- a` when the branch is taken, else `pc <- pc + 1` (R120 to R122). -/
def branchIf (taken : Bool) (a : Nat) (s : State) : State :=
  if taken then s.setPc a else s.advance

end Sys2Proof.Machine
end

