-- ==== Sys2Proof/Machine/Arithmetic.lean ====
section
/-! DEFINITION. ADD and SUB (41_arithmetic.md). -/

namespace Sys2Proof.Machine

/-- The shared shape of ADD and SUB: the accumulator and the flag from the ALU, then `pc + 1`. -/
def aluStep (f : Word → Word → Word × Bool) (a : Nat) (s : State) : Result :=
  withCell a s fun m =>
    .next ((s.setAcc (f s.acc m).1).setPflag (f s.acc m).2).advance

/-- ADD a (R100). -/
def execAdd (a : Nat) (s : State) : Result := aluStep aluAdd a s

/-- SUB a (R101). -/
def execSub (a : Nat) (s : State) : Result := aluStep aluSub a s

end Sys2Proof.Machine
end

