-- ==== Sys2Proof/Machine/Control.lean ====
section
/-! DEFINITION. BRA, BRZ and BRP (43_control.md): they write the program counter and nothing else. -/

namespace Sys2Proof.Machine

/-- BRA a (R120). -/
def execBra (a : Nat) (s : State) : Result := .next (branchIf true a s)

/-- BRZ a: taken when the accumulator is zero (R121). -/
def execBrz (a : Nat) (s : State) : Result := .next (branchIf (isZero s.acc) a s)

/-- BRP a: taken when the Positive Flag is set (R122). -/
def execBrp (a : Nat) (s : State) : Result := .next (branchIf s.pflag a s)

end Sys2Proof.Machine
end

