-- ==== Sys2Proof/Machine/HaltIo.lean ====
section
/-! DEFINITION. HLT, INP and OUT (44_halt_io.md), and the illegal words (40_fetch_decode.md R93). -/

namespace Sys2Proof.Machine

/-- HLT: `halted <- true`, whatever the operand digits; `pc` stays at the HLT (R130, decision D7). -/
def execHlt (_a : Nat) (s : State) : Result := .next (s.setHalted true)

/-- INP: the front of the input queue into the accumulator; an empty queue raises `InputError` with
nothing else changed (R131). -/
def execInp (s : State) : Result :=
  match s.inq with
  | [] => raiseFault .inputEmpty s
  | v :: rest => .next ((s.setAcc v).setInq rest).advance

/-- OUT: the accumulator appended to the output queue (R132). -/
def execOut (s : State) : Result := .next (s.setOutq (s.outq ++ [s.acc])).advance

/-- Words 400-499 (R66): `IllegalInstructionError` (R93). -/
def execIllegal4xx (_a : Nat) (s : State) : Result := raiseFault .illegal s

/-- Word 900 (R65): `IllegalInstructionError` (R93). -/
def execIllegal900 (s : State) : Result := raiseFault .illegal s

/-- Words 903-999 (R65): `IllegalInstructionError` (R93). -/
def execIllegal9xx (_a : Nat) (s : State) : Result := raiseFault .illegal s

end Sys2Proof.Machine
end

