-- ==== Sys2Proof/Machine/LoadStore.lean ====
section
/-! DEFINITION. LDA and STA (42_load_store.md); neither alters the Positive Flag. -/

namespace Sys2Proof.Machine

/-- LDA a: `acc <- M[a]` (R110). -/
def execLda (a : Nat) (s : State) : Result :=
  withCell a s fun v => .next (s.setAcc v).advance

/-- STA a: `M[a] <- acc` (R111). -/
def execSta (a : Nat) (s : State) : Result :=
  intoCell a s.acc s fun t => .next t.advance

end Sys2Proof.Machine
end

