-- ==== Sys2Proof/Machine/Step.lean ====
section
/-! DEFINITION. The step of 40_fetch_decode.md R95, and the placing of a word where it fetches next. -/

namespace Sys2Proof.Machine

/-- One pass of the fetch-decode-execute cycle (R90 to R95): one instruction, or one fault. -/
def step (s : State) : Host.Outcome State Fault Refusal :=
  whenReady s (withFetched s fun w => exec (decodeWord w) s)

/-- `s` with the word `w` where `step` fetches next, so that the very next step runs it (log entries 3
and 9). -/
def State.withFetchWord (s : State) (_nbits w : Nat) : State := placeFetchWord s w

end Sys2Proof.Machine
end

