-- ==== Sys2Proof/Machine/HostOps.lean ====
section
/-! DEFINITION. What the host can do to the core (70_reset_and_hazards.md R170 to R176, 00_scope.md R8):
load a program, set the input, run, and read the state; and the run itself as a loop of steps (R96,
R175). These are not instructions: `step` calls none of them (log entry 11). -/

namespace Sys2Proof.Machine

/-- What the host is told (R8, R140, R147, R175). -/
inductive HostReply where
  /-- `load_program` succeeded (R171). -/
  | loaded
  /-- `load_program` rejected its image with `LoadError` (R170). -/
  | loadError
  /-- `set_input` succeeded (R173). -/
  | inputSet
  /-- `set_input` rejected its values with `InputError` (R173). -/
  | inputError
  /-- `run()` has begun and has not returned (R175). -/
  | runStarted
  /-- `run()` returned the output queue after a halt (R175). -/
  | outputs (q : List Word)
  /-- `run()` reported a run-time error (R147, R175). -/
  | runError (c : FaultCause)
  /-- The state read back (R147). -/
  | stateRead (s : State)
  deriving DecidableEq, Repr

/-! ### The two operations on the state -/

/-- An integer as a word, when it lies in [0, 999] (R170, R173). -/
def wordOf? (v : Int) : Option Word :=
  if h : 0 ≤ v ∧ v ≤ 999 then some ⟨v.toNat, by omega⟩ else none

/-- Every value as a word, or none when some value is out of range. -/
def wordsOf? : List Int → Option (List Word)
  | [] => some []
  | v :: vs =>
    match wordOf? v, wordsOf? vs with
    | some w, some ws => some (w :: ws)
    | _, _ => none

/-- The image in cells `base`, `base + 1`, ..., every other cell 0 (R171); cells that hold 0 are not
listed. -/
def placeImage (base : Nat) : List Word → Memory
  | [] => []
  | v :: vs => if v = 0 then placeImage (base + 1) vs else (base, v) :: placeImage (base + 1) vs

/-- What a successful load leaves (R171, R32); the input queue is unchanged (90_conflicts.md C9). -/
def loadedState (ws : List Word) (s : State) : State :=
  { s with
    acc := 0
    pc := 0
    pflag := true
    halted := false
    fault := .none
    mem := placeImage 0 ws
    outq := []
    loaded := true }

/-- `load_program(image)` (R170, R171): rejected atomically when the image is longer than 100 or holds
a value outside [0, 999]. -/
def loadProgram (image : List Int) (s : State) : State × HostReply :=
  if image.length > Config.memCells then (s, .loadError)
  else
    match wordsOf? image with
    | none => (s, .loadError)
    | some ws => (loadedState ws s, .loaded)

/-- `set_input(values)` (R173): replaces the input queue whole, or leaves the state as it was when a
value is out of range (decision D11). -/
def setInput (values : List Int) (s : State) : State × HostReply :=
  match wordsOf? values with
  | none => (s, .inputError)
  | some ws => (s.setInq ws, .inputSet)

/-! ### The run -/

/-- What `run()` answers about a core that has stopped, and nothing while it is ready (R175, R147). -/
def runReply (s : State) : Option HostReply :=
  match s.status with
  | .halted => some (.outputs s.outq)
  | .faulted c => some (.runError c)
  | .ready => none
  | .unloaded => none

/-- The loop of `run()`, cut off after `n` steps; the bound is the model's way to evaluate a loop that
may not end, no part of the core (R175, R150, D14). The reply is `none` while the run goes on. -/
def runFor : Nat → State → State × Option HostReply
  | 0, s => (s, runReply s)
  | n + 1, s =>
    match step s with
    | .next t => runFor n t
    | .fault _ => (s, runReply s)
    | .refused _ => (s, runReply s)

/-! ### The engine as the host sees it -/

/-- The core, and whether `run()` is in progress (R176). -/
structure Engine where
  core : State
  running : Bool
  deriving DecidableEq, Repr

/-- A fresh engine: not loaded, not running (R172, R174). -/
def Engine.constructed : Engine := ⟨State.constructed, false⟩

/-- The host's moves (R176). -/
inductive HostAction where
  | loadProgram (image : List Int)
  | setInput (values : List Int)
  | run
  | readState
  deriving DecidableEq, Repr

/-- `run()`: begins the loop on a ready core, returns at once on a stopped one (R146, R175), and is not
modelled on an unloaded one (R172). -/
def startRun (e : Engine) : Host.Outcome (Engine × HostReply) Fault Refusal :=
  match e.core.status with
  | .ready => .next (⟨e.core, true⟩, .runStarted)
  | .halted => .next (e, .outputs e.core.outq)
  | .faulted c => .next (e, .runError c)
  | .unloaded => .refused .unloaded

/-- One move of the host; it has none while `run()` is in progress (R176, decision D12). -/
def hostAct (x : HostAction) (e : Engine) : Host.Outcome (Engine × HostReply) Fault Refusal :=
  if e.running then .refused .hostDuringRun
  else
    match x with
    | .loadProgram image => .next (⟨(loadProgram image e.core).1, false⟩, (loadProgram image e.core).2)
    | .setInput values => .next (⟨(setInput values e.core).1, false⟩, (setInput values e.core).2)
    | .run => startRun e
    | .readState => .next (e, .stateRead e.core)

/-- One iteration of the loop of `run()` while it is in progress (R96, R175): a step, and then the
return to the host when the core has stopped. -/
def tick (e : Engine) : Engine × Option HostReply :=
  if e.running then
    match step e.core with
    | .next t => (⟨t, decide (t.status = .ready)⟩, runReply t)
    | .fault _ => (⟨e.core, false⟩, runReply e.core)
    | .refused _ => (⟨e.core, false⟩, runReply e.core)
  else (e, none)

/-- `n` iterations of the loop. -/
def ticks : Nat → Engine → Engine
  | 0, e => e
  | n + 1, e => ticks n (tick e).1

end Sys2Proof.Machine
end

