-- ==== Sys2Proof/Safety.lean ====
section
/-! DEFINITION. What every state of this core keeps, and which engines the host and the core can reach
together. -/

namespace Sys2Proof.Machine

/-- The decoder gives ILLEGAL for the word (30_encoding.md R67). -/
abbrev illegalWord (w : Word) : Prop := (400 ≤ w.val ∧ w.val ≤ 499) ∨ w.val = 900 ∨ 903 ≤ w.val

/-- The reason the core stopped can still be read where R141 and R130 say it is: a MEMORY fault left
`pc` at 100, an INPUT_EMPTY fault at the INP, an ILLEGAL fault at the illegal word, and a halt at the
HLT. -/
abbrev State.stopRecord (s : State) : Prop :=
  (s.fault = .memory → s.pc = 100) ∧
  (s.fault = .inputEmpty → s.pc ≤ 99 ∧ (faultWord s).val = 901) ∧
  (s.fault = .illegal → s.pc ≤ 99 ∧ illegalWord (faultWord s)) ∧
  (s.loaded = true → s.halted = true → s.fault = .none ∧ s.pc ≤ 99 ∧ (faultWord s).val ≤ 99)

/-- The invariant of the core: the Memory Store keeps its canonical form, `pc` is at most 100 (R21),
only a loaded core has faulted, and the stop record is right. -/
abbrev State.Inv (s : State) : Prop :=
  Memory.wf s.mem ∧ s.pc ≤ 100 ∧ (s.loaded = false → s.fault = .none) ∧ s.stopRecord

/-- The invariant of an engine: its core's, and `run()` is in progress only while the core is ready
(R175). -/
abbrev Engine.Inv (e : Engine) : Prop :=
  e.core.Inv ∧ (e.running = true → e.core.status = .ready)

/-- The engines that the host's moves and the run's iterations lead to from a fresh one (R174, R176). -/
inductive Reachable : Engine → Prop where
  | constructed : Reachable Engine.constructed
  | hostMove {e e' : Engine} {r : HostReply} (x : HostAction) (h : Reachable e) (hx : hostAct x e = .next (e', r)) :
      Reachable e'
  | runTick {e : Engine} (h : Reachable e) : Reachable (tick e).1

end Sys2Proof.Machine
end

