-- ==== Sys2Proof/Certificates/Slice0/Obligations.lean ====
section
/-! DEFINITION. What the model is claimed to do, from the spec's numbered rules. Statements about `exec`
hold in every state, ready or not; the gate of R94 is `step`'s, and has its own statements. -/

open Sys2Proof Sys2Proof.Machine

/-! ### Encoding -/

/-- R61: a word splits into its opcode digit and its two operand digits. -/
def Obligations.WordSplitsIntoOpcodeAndOperand : Prop :=
  ∀ w : Word,
    opcodeOf w = w.val / 100 ∧ operandOf w = w.val % 100 ∧ opcodeOf w ≤ 9 ∧ operandOf w ≤ 99 ∧
    w.val = opcodeOf w * 100 + operandOf w

/-- R63: the opcode map, row by row. -/
def Obligations.DecoderFollowsOpcodeMap : Prop :=
  ∀ w : Word,
    (w.val ≤ 99 → decodeWord w = .hlt w.val) ∧
    (100 ≤ w.val → w.val ≤ 199 → decodeWord w = .add (w.val - 100)) ∧
    (200 ≤ w.val → w.val ≤ 299 → decodeWord w = .sub (w.val - 200)) ∧
    (300 ≤ w.val → w.val ≤ 399 → decodeWord w = .sta (w.val - 300)) ∧
    (400 ≤ w.val → w.val ≤ 499 → decodeWord w = .illegal4xx (w.val - 400)) ∧
    (500 ≤ w.val → w.val ≤ 599 → decodeWord w = .lda (w.val - 500)) ∧
    (600 ≤ w.val → w.val ≤ 699 → decodeWord w = .bra (w.val - 600)) ∧
    (700 ≤ w.val → w.val ≤ 799 → decodeWord w = .brz (w.val - 700)) ∧
    (800 ≤ w.val → w.val ≤ 899 → decodeWord w = .brp (w.val - 800)) ∧
    (w.val = 900 → decodeWord w = .illegal900) ∧
    (w.val = 901 → decodeWord w = .inp) ∧
    (w.val = 902 → decodeWord w = .out) ∧
    (903 ≤ w.val → decodeWord w = .illegal9xx (w.val - 900))

/-- Decoding the word of a well-formed instruction gives the instruction back, for every instruction
and every operand (R60, R61, R65, R70). That HLT and the illegal rows have an operand to give back is
the model's choice: they keep the digits they ignore (log entry 8). -/
def Obligations.DecodingAnEncodedInstructionGivesItBack : Prop :=
  ∀ i : Instr, i.wellFormed = true → decode (encode i) = .ok i

/-- A decoded number is the word of its instruction, so that no digit of a word is lost (R60, R61). For
the words of HLT and of the illegal rows this is the model's choice, log entry 8: these instructions
keep the digits they ignore, while the spec's canonical HLT has the one word 0 (R70). -/
def Obligations.EncodingADecodedWordGivesItBack : Prop :=
  ∀ (w : Nat) (i : Instr), decode w = .ok i → i.wellFormed = true ∧ encode i = w

/-- The decoder is total on [0, 999] (R68); that a larger number is rejected by name is the model's
choice (log entry 9), since no cell can hold one (R60). -/
def Obligations.DecoderAcceptsExactlyTheWords : Prop :=
  ∀ w : Nat,
    (w ≤ 999 → ∃ i, decode w = .ok i) ∧ (999 < w → decode w = .error (.aboveWordRange w))

/-- R70: the canonical encodings. -/
def Obligations.CanonicalWordsOfTheMnemonics : Prop :=
  ∀ a : Nat, a ≤ 99 →
    encode (.hlt 0) = 0 ∧ encode (.add a) = 100 + a ∧ encode (.sub a) = 200 + a ∧
    encode (.sta a) = 300 + a ∧ encode (.lda a) = 500 + a ∧ encode (.bra a) = 600 + a ∧
    encode (.brz a) = 700 + a ∧ encode (.brp a) = 800 + a ∧ encode .inp = 901 ∧ encode .out = 902

/-- The decode vectors of 95_test_vectors.md section 2.1. -/
def Obligations.DecodeVectorsOfTheSpec : Prop :=
  decode 57 = .ok (.hlt 57) ∧ decode 199 = .ok (.add 99) ∧ decode 250 = .ok (.sub 50) ∧
  decode 399 = .ok (.sta 99) ∧ decode 400 = .ok (.illegal4xx 0) ∧ decode 500 = .ok (.lda 0) ∧
  decode 600 = .ok (.bra 0) ∧ decode 713 = .ok (.brz 13) ∧ decode 899 = .ok (.brp 99) ∧
  decode 900 = .ok .illegal900 ∧ decode 901 = .ok .inp ∧ decode 902 = .ok .out ∧
  decode 903 = .ok (.illegal9xx 3) ∧ decode 999 = .ok (.illegal9xx 99)

/-! ### The step -/

/-- R91, R92: when the word at the program counter decodes to an instruction, the step of a ready core
is that instruction's meaning at that state, and nothing is added around it. -/
def Obligations.StepRunsTheDecodedInstruction : Prop :=
  ∀ (s : State) (i : Instr), s.status = .ready → s.pc ≤ 99 →
    decode (Memory.read s.mem s.pc).val = .ok i → step s = exec i s

/-- R90: a fetch with `pc` outside [0, 99] raises `MemoryError`, whatever the memory holds, and nothing
else changes; where the invariant holds, as it does in every reachable state, that `pc` is 100. -/
def Obligations.FetchOutsideTheStoreRaisesMemoryError : Prop :=
  ∀ s : State, s.status = .ready → 99 < s.pc →
    step s = .next { s with fault := .memory } ∧ (s.Inv → s.pc = 100)

/-- R94: a step is taken exactly when `fault = NONE` and `halted = false`. That a program has been
loaded is the model's bit `loaded` (log entry 4). -/
def Obligations.StepIsTakenExactlyWhenReady : Prop :=
  ∀ s : State, s.loaded = true →
    ((∃ t, step s = .next t) ↔ s.fault = .none ∧ s.halted = false)

/-- The run status as a function of the state, and the name under which `step` stops in each status
but ready. The stops' names are the model's choice (log entry 6); that a stopped core takes no step is
the spec's decisions D8 and D9, and that the unloaded state takes none its decision D10. -/
def Obligations.StoppedCoreTakesNoStep : Prop :=
  ∀ s : State,
    (s.loaded = false → s.status = .unloaded ∧ step s = .refused .unloaded) ∧
    (s.loaded = true → s.fault ≠ .none →
      s.status = .faulted s.fault ∧ step s = .fault (.faultedCore s.fault)) ∧
    (s.loaded = true → s.fault = .none → s.halted = true →
      s.status = .halted ∧ step s = .fault .haltedCore) ∧
    (s.loaded = true → s.fault = .none → s.halted = false → s.status = .ready)

/-- The whole fetch-decode-execute cycle of 40_fetch_decode.md, as the numbers of its pseudocode: `w`
the word fetched, `a` its operand, `m` the value of cell `a`. HLT's unmoved `pc` is the spec's decision
D7 (log entry 7), the fault register its decision D5 (log entry 10), and the output queue without a
bound, on which the OUT row rests, its decision D13 (log entry 12). -/
def Obligations.StepIsTheFetchDecodeExecuteCycle : Prop :=
  ∀ s : State, s.status = .ready →
    let w := (Memory.read s.mem s.pc).val
    let a := w % 100
    let m := (Memory.read s.mem a).val
    ∃ t, step s = .next t ∧
      if 99 < s.pc then t = { s with fault := .memory }
      else match w / 100 with
        | 0 => t = { s with halted := true }
        | 1 => t = { s with acc := t.acc, pflag := decide (s.acc.val + m ≤ 999), pc := s.pc + 1 } ∧
            t.acc.val = (s.acc.val + m) % 1000
        | 2 => t = { s with acc := t.acc, pflag := decide (m ≤ s.acc.val), pc := s.pc + 1 } ∧
            (t.acc.val : Int) = ((s.acc.val : Int) - m) % 1000
        | 3 => t = { s with mem := t.mem, pc := s.pc + 1 } ∧
            ∀ b, Memory.read t.mem b = if b = a then s.acc else Memory.read s.mem b
        | 4 => t = { s with fault := .illegal }
        | 5 => t = { s with acc := Memory.read s.mem a, pc := s.pc + 1 }
        | 6 => t = { s with pc := a }
        | 7 => t = { s with pc := if s.acc = 0 then a else s.pc + 1 }
        | 8 => t = { s with pc := if s.pflag then a else s.pc + 1 }
        | _ =>
          if a = 1 then
            match s.inq with
            | [] => t = { s with fault := .inputEmpty }
            | v :: rest => t = { s with acc := v, inq := rest, pc := s.pc + 1 }
          else if a = 2 then t = { s with outq := s.outq ++ [s.acc], pc := s.pc + 1 }
          else t = { s with fault := .illegal }

/-! ### What each instruction does -/

/-- R100: ADD, with the sum folded back into [0, 999] and the flag false exactly when it exceeded 999. -/
def Obligations.AddFoldsTheSumAndSetsTheFlag : Prop :=
  ∀ (a : Nat) (s : State), a ≤ 99 →
    ∃ v : Word,
      exec (.add a) s = .next { s with
        acc := v
        pflag := if s.acc.val + (Memory.read s.mem a).val > 999 then false else true
        pc := s.pc + 1 } ∧
      v.val = if s.acc.val + (Memory.read s.mem a).val > 999
        then s.acc.val + (Memory.read s.mem a).val - 1000
        else s.acc.val + (Memory.read s.mem a).val

/-- R101: SUB, with the difference folded back into [0, 999] and the flag false exactly when it was
negative. -/
def Obligations.SubFoldsTheDifferenceAndSetsTheFlag : Prop :=
  ∀ (a : Nat) (s : State), a ≤ 99 →
    ∃ v : Word,
      exec (.sub a) s = .next { s with
        acc := v
        pflag := if (s.acc.val : Int) - (Memory.read s.mem a).val < 0 then false else true
        pc := s.pc + 1 } ∧
      (v.val : Int) = if (s.acc.val : Int) - (Memory.read s.mem a).val < 0
        then (s.acc.val : Int) - (Memory.read s.mem a).val + 1000
        else (s.acc.val : Int) - (Memory.read s.mem a).val

/-- R110: LDA; the Positive Flag keeps its value, even when the loaded value is 0. -/
def Obligations.LdaLoadsTheCell : Prop :=
  ∀ (a : Nat) (s : State), a ≤ 99 →
    exec (.lda a) s = .next { s with acc := Memory.read s.mem a, pc := s.pc + 1 }

/-- R111: STA; cell `a` reads as the accumulator afterwards, every other cell as before. -/
def Obligations.StaStoresTheAccumulator : Prop :=
  ∀ (a : Nat) (s : State), a ≤ 99 →
    ∃ m : Memory,
      exec (.sta a) s = .next { s with mem := m, pc := s.pc + 1 } ∧
      Memory.read m a = s.acc ∧ ∀ b, b ≠ a → Memory.read m b = Memory.read s.mem b

/-- R120: BRA. -/
def Obligations.BraSetsThePc : Prop :=
  ∀ (a : Nat) (s : State), exec (.bra a) s = .next { s with pc := a }

/-- R121: BRZ tests the accumulator itself. -/
def Obligations.BrzBranchesOnZeroAccumulator : Prop :=
  ∀ (a : Nat) (s : State),
    exec (.brz a) s = .next { s with pc := if s.acc.val = 0 then a else s.pc + 1 }

/-- R122: BRP tests the Positive Flag. -/
def Obligations.BrpBranchesOnThePositiveFlag : Prop :=
  ∀ (a : Nat) (s : State),
    exec (.brp a) s = .next { s with pc := if s.pflag = true then a else s.pc + 1 }

/-- HLT sets Halted and nothing else, whatever its operand digits (44_halt_io.md). That `pc` stays at
the HLT is the spec's decision D7. -/
def Obligations.HltSetsHaltedOnly : Prop :=
  ∀ (a : Nat) (s : State), exec (.hlt a) s = .next { s with halted := true }

/-- R131: INP takes the front of the input queue, and raises `InputError` with nothing else changed
when there is none. -/
def Obligations.InpTakesTheFrontOrFaults : Prop :=
  ∀ s : State,
    (s.inq = [] → exec .inp s = .next { s with fault := .inputEmpty }) ∧
    (∀ (v : Word) (rest : List Word), s.inq = v :: rest →
      exec .inp s = .next { s with acc := v, inq := rest, pc := s.pc + 1 })

/-- OUT appends the accumulator to the output queue, however long it is (44_halt_io.md). That the queue
has no capacity limit is the spec's decision D13. -/
def Obligations.OutAppendsTheAccumulator : Prop :=
  ∀ s : State, exec .out s = .next { s with outq := s.outq ++ [s.acc], pc := s.pc + 1 }

/-- R93: the three illegal rows, and so every illegal word, raise `IllegalInstructionError`: Halted is
not set and `pc` is not advanced. -/
def Obligations.IllegalWordsRaiseIllegalInstruction : Prop :=
  ∀ s : State,
    (∀ a, exec (.illegal4xx a) s = .next { s with fault := .illegal }) ∧
    exec .illegal900 s = .next { s with fault := .illegal } ∧
    (∀ a, exec (.illegal9xx a) s = .next { s with fault := .illegal }) ∧
    ∀ w : Word, illegalWord w → exec (decodeWord w) s = .next { s with fault := .illegal }

/-- R41, R42: a data address outside the store raises `MemoryError` with nothing else changed. No
decoded instruction has such an address (R43); only an instruction written as syntax does. -/
def Obligations.DataAddressOutsideTheStoreRaisesMemoryError : Prop :=
  ∀ (a : Nat) (s : State), 99 < a →
    ∀ i ∈ [Instr.add a, Instr.sub a, Instr.lda a, Instr.sta a],
      exec i s = .next { s with fault := .memory }

/-! ### What each instruction leaves unchanged -/

/-- The frame of ADD, SUB and LDA: beside `acc` and `pc` (and, for ADD and SUB, `pflag`) nothing
changes, and every cell reads as before; the fault cause only on an address outside the store. -/
def Obligations.AddSubLdaFrame : Prop :=
  ∀ (a : Nat) (i : Instr) (s t : State), i ∈ [Instr.add a, Instr.sub a, Instr.lda a] →
    exec i s = .next t →
    t.halted = s.halted ∧ t.inq = s.inq ∧ t.outq = s.outq ∧ t.loaded = s.loaded ∧
    (a ≤ 99 → t.fault = s.fault) ∧ (i = .lda a → t.pflag = s.pflag) ∧
    ∀ b, Memory.read t.mem b = Memory.read s.mem b

/-- The frame of STA: beside cell `a` and `pc` nothing changes; the fault cause only on an address
outside the store, and then no cell. -/
def Obligations.StaFrame : Prop :=
  ∀ (a : Nat) (s t : State), exec (.sta a) s = .next t →
    t.acc = s.acc ∧ t.pflag = s.pflag ∧ t.halted = s.halted ∧ t.inq = s.inq ∧ t.outq = s.outq ∧
    t.loaded = s.loaded ∧ (a ≤ 99 → t.fault = s.fault) ∧
    (∀ b, b ≠ a → Memory.read t.mem b = Memory.read s.mem b) ∧
    (99 < a → ∀ b, Memory.read t.mem b = Memory.read s.mem b)

/-- The frame of the branches, HLT and the illegal words: no register, flag, queue or cell changes but
`pc` for a branch, `halted` for HLT and `fault` for an illegal word (R93). That HLT leaves `pc` is the
spec's decision D7 (log entry 7). -/
def Obligations.BranchHaltIllegalFrame : Prop :=
  ∀ (a : Nat) (i : Instr) (s t : State),
    i ∈ [Instr.bra a, .brz a, .brp a, .hlt a, .illegal4xx a, .illegal900, .illegal9xx a] →
    exec i s = .next t →
    t.acc = s.acc ∧ t.pflag = s.pflag ∧ t.inq = s.inq ∧ t.outq = s.outq ∧ t.loaded = s.loaded ∧
    (i ∈ [Instr.bra a, .brz a, .brp a] → t.halted = s.halted ∧ t.fault = s.fault) ∧
    (i = .hlt a → t.pc = s.pc ∧ t.fault = s.fault) ∧
    (i ∈ [Instr.illegal4xx a, .illegal900, .illegal9xx a] → t.pc = s.pc ∧ t.halted = s.halted) ∧
    ∀ b, Memory.read t.mem b = Memory.read s.mem b

/-- The frame of INP and OUT: INP changes `acc`, `inq` and `pc`, or the fault cause alone on an empty
queue; OUT changes `outq` and `pc`; no cell and no flag. -/
def Obligations.InpOutFrame : Prop :=
  ∀ (i : Instr) (s t : State), i ∈ [Instr.inp, Instr.out] → exec i s = .next t →
    t.pflag = s.pflag ∧ t.halted = s.halted ∧ t.loaded = s.loaded ∧
    (i = .inp → t.outq = s.outq ∧ (s.inq ≠ [] → t.fault = s.fault) ∧
      (s.inq = [] → t.acc = s.acc ∧ t.inq = s.inq ∧ t.pc = s.pc)) ∧
    (i = .out → t.acc = s.acc ∧ t.inq = s.inq ∧ t.fault = s.fault) ∧
    ∀ b, Memory.read t.mem b = Memory.read s.mem b

/-! ### Rules about the whole machine -/

/-- The writers of every state element, over all instructions (R20 to R29, R142): an element that
changed was changed by one of its writers. `pc` is left by HLT, by the illegal rows, by INP on an empty
queue and by a data address above 99; the fault cause is written only by the last three. That HLT is
not among the writers of `pc` is the spec's decision D7 (log entry 7); the fault register is its
decision D5 (log entry 10). -/
def Obligations.EachElementChangesOnlyByItsWriters : Prop :=
  ∀ (i : Instr) (s t : State), exec i s = .next t →
    (t.acc ≠ s.acc → i = .inp ∨ ∃ a, i = .add a ∨ i = .sub a ∨ i = .lda a) ∧
    (t.pc ≠ s.pc →
      (∃ a, a ≤ 99 ∧ i ∈ [Instr.add a, .sub a, .lda a, .sta a]) ∨
      (∃ a, i ∈ [Instr.bra a, .brz a, .brp a]) ∨ (i = .inp ∧ s.inq ≠ []) ∨ i = .out) ∧
    (t.pflag ≠ s.pflag → ∃ a, i = .add a ∨ i = .sub a) ∧
    (t.fault ≠ s.fault →
      (t.fault = .memory ∧ ∃ a, 99 < a ∧ i ∈ [Instr.add a, .sub a, .lda a, .sta a]) ∨
      (t.fault = .inputEmpty ∧ i = .inp ∧ s.inq = []) ∨
      (t.fault = .illegal ∧ ∃ a, i ∈ [Instr.illegal4xx a, .illegal900, .illegal9xx a])) ∧
    (t.halted ≠ s.halted → t.halted = true ∧ ∃ a, i = .hlt a) ∧
    (t.mem ≠ s.mem → ∃ a, i = .sta a) ∧
    (t.inq ≠ s.inq → i = .inp) ∧
    (t.outq ≠ s.outq → i = .out) ∧
    t.loaded = s.loaded

/-- R23: the Positive Flag is read only by BRP. From the same state with any other value `b` of the
flag, ADD and SUB of a cell of the store give the very same state, their new flag included, and every
other instruction but BRP gives the same state with `b` carried through. -/
def Obligations.PositiveFlagIsReadOnlyByBrp : Prop :=
  ∀ (i : Instr) (s t : State) (b : Bool), (∀ a, i ≠ .brp a) → exec i s = .next t →
    ((∃ a, a ≤ 99 ∧ (i = .add a ∨ i = .sub a)) → exec i { s with pflag := b } = .next t) ∧
    (¬(∃ a, a ≤ 99 ∧ (i = .add a ∨ i = .sub a)) →
      exec i { s with pflag := b } = .next { t with pflag := b })

/-- The next `pc` of every well-formed instruction (43_control.md, the control-flow summary). HLT's row
is the spec's decision D7. -/
def Obligations.NextPcOfEveryInstruction : Prop :=
  ∀ (i : Instr) (s t : State), i.wellFormed = true → exec i s = .next t →
    t.pc = match i with
      | .hlt _ => s.pc
      | .add _ => s.pc + 1
      | .sub _ => s.pc + 1
      | .sta _ => s.pc + 1
      | .illegal4xx _ => s.pc
      | .lda _ => s.pc + 1
      | .bra a => a
      | .brz a => if s.acc.val = 0 then a else s.pc + 1
      | .brp a => if s.pflag = true then a else s.pc + 1
      | .illegal900 => s.pc
      | .inp => if s.inq = [] then s.pc else s.pc + 1
      | .out => s.pc + 1
      | .illegal9xx _ => s.pc

/-- R142: a faulting step sets the fault cause and changes nothing else; `halted` stays false. -/
def Obligations.FaultingStepChangesOnlyTheFaultCause : Prop :=
  ∀ s t : State, step s = .next t → t.fault ≠ .none →
    t = { s with fault := t.fault } ∧ t.halted = false ∧
    (t.fault.code = 1 ∨ t.fault.code = 2 ∨ t.fault.code = 3)

/-- Which fault a step raises, its code, and the address and word it can be read from afterwards
(60_exceptions.md section 1). The codes and the fault
register are the spec's decision D5. No data access is among the causes (20_memory.md, its inference
that the data check cannot be reached). -/
def Obligations.FaultCausesOfAStep : Prop :=
  ∀ s t : State, step s = .next t →
    (t.fault = .memory ↔ 99 < s.pc) ∧
    (t.fault = .inputEmpty ↔
      s.pc ≤ 99 ∧ (Memory.read s.mem s.pc).val = 901 ∧ s.inq = []) ∧
    (t.fault = .illegal ↔ s.pc ≤ 99 ∧ illegalWord (Memory.read s.mem s.pc)) ∧
    (t.fault ≠ .none → faultAddress t = s.pc ∧ faultWord t = Memory.read s.mem s.pc) ∧
    FaultCause.code .none = 0 ∧ FaultCause.code .memory = 1 ∧ FaultCause.code .inputEmpty = 2 ∧
    FaultCause.code .illegal = 3

/-- ADD and then SUB of the same cell restores the accumulator, and leaves the flag the ADD left: both
fold around 1000 together (R100, R101). -/
def Obligations.SubUndoesAdd : Prop :=
  ∀ (a : Nat) (s : State), a ≤ 99 →
    ∃ t u, exec (.add a) s = .next t ∧ exec (.sub a) t = .next u ∧
      u.acc = s.acc ∧ u.pflag = t.pflag

/-- 20_memory.md section 5: a store is seen by every later fetch of the cell, the next one included. In
any ready state whose memory is the one STA left and whose `pc` is the stored cell, the step runs the
instruction the accumulator's value encodes. -/
def Obligations.StoreIsSeenByTheNextFetch : Prop :=
  ∀ (a : Nat) (s t u : State), a ≤ 99 → exec (.sta a) s = .next t →
    u.mem = t.mem → u.status = .ready → u.pc = a → step u = exec (decodeWord s.acc) u

/-- R50: in a canonical memory the cells' values are the memory: two memories that read the same at
every address are equal. The canonical form is the model's choice (log entry 2). -/
def Obligations.MemoriesThatReadTheSameAreEqual : Prop :=
  ∀ m m' : Memory, Memory.wf m → Memory.wf m' →
    (∀ a, a ≤ 99 → Memory.read m a = Memory.read m' a) → m = m'

/-- Every step keeps the invariant, from every state that has it, reached or not: the canonical form of
the Memory Store, `pc` at most 100, and the record of why the core stopped. -/
def Obligations.StepKeepsTheInvariant : Prop :=
  ∀ s t : State, s.Inv → step s = .next t → t.Inv

/-- The invariant holds right after reset. -/
def Obligations.ResetMeetsTheInvariant : Prop := State.reset.Inv

/-- Nothing but OUT looks at the output queue, and OUT does not look at what is in it: values put in
front of it beforehand stay in front of it, and change nothing else (R29, R132). -/
def Obligations.OutputQueueIsNeverRead : Prop :=
  ∀ (s t : State) (q : List Word), step s = .next t →
    step { s with outq := q ++ s.outq } = .next { t with outq := q ++ t.outq }

/-- A step looks at no more than the front of the input queue: values behind it stay behind it, and
change nothing unless the step faulted for want of input (R28, R131). -/
def Obligations.OnlyTheFrontOfTheInputIsRead : Prop :=
  ∀ (s t : State) (q : List Word), step s = .next t → t.fault ≠ .inputEmpty →
    step { s with inq := s.inq ++ q } = .next { t with inq := t.inq ++ q }

/-! ### Reset and the host's operations -/

/-- The state after reset is what `load_program` of the empty image leaves on a fresh engine, with the
values of 10_state.md's summary. That reset is THIS load, and so that the input queue is empty, is the
model's choice (log entry 3); the fault cause is the spec's decision D5. -/
def Obligations.ResetIsTheLoadOfAnEmptyImage : Prop :=
  loadProgram [] State.constructed = (State.reset, .loaded) ∧
  State.reset.acc = 0 ∧ State.reset.pc = 0 ∧ State.reset.pflag = true ∧
  State.reset.halted = false ∧ State.reset.fault = .none ∧ State.reset.outq = [] ∧
  State.reset.inq = [] ∧ State.reset.status = .ready ∧
  ∀ a, Memory.read State.reset.mem a = 0

/-- The fresh engine before any load (the spec's decision D10): every cell 0, no input, no fault, and no
step. Nothing is said of its free values (log entry 5). -/
def Obligations.FreshEngineIsUnloaded : Prop :=
  (∀ a, Memory.read State.constructed.mem a = 0) ∧ State.constructed.inq = [] ∧
  State.constructed.fault = .none ∧ State.constructed.status = .unloaded ∧
  step State.constructed = .refused .unloaded

/-- R170: `load_program` rejects exactly the images that are too long or hold a value outside [0, 999],
and a rejected load changes nothing. -/
def Obligations.LoadRejectsBadImagesAtomically : Prop :=
  ∀ (image : List Int) (s : State),
    ((100 < image.length ∨ ∃ v ∈ image, v < 0 ∨ 999 < v) → loadProgram image s = (s, .loadError)) ∧
    (¬(100 < image.length ∨ ∃ v ∈ image, v < 0 ∨ 999 < v) → (loadProgram image s).2 = .loaded)

/-- What a successful `load_program` leaves in every state element (70_reset_and_hazards.md section 1):
the image, zeros above it, the registers reset, the input queue unchanged. That it clears the fault
cause is the spec's decision D5. -/
def Obligations.LoadResetsAllButTheInputQueue : Prop :=
  ∀ (image : List Int) (s : State), image.length ≤ 100 → (∀ v ∈ image, 0 ≤ v ∧ v ≤ 999) →
    ∃ t, loadProgram image s = (t, .loaded) ∧
      t.acc = 0 ∧ t.pc = 0 ∧ t.pflag = true ∧ t.halted = false ∧ t.fault = .none ∧ t.outq = [] ∧
      t.inq = s.inq ∧ t.status = .ready ∧
      ∀ a : Nat, ((Memory.read t.mem a).val : Int) = (image[a]?).getD 0

/-- A successful load makes any state meet the invariant. -/
def Obligations.LoadEstablishesTheInvariant : Prop :=
  ∀ (image : List Int) (s t : State), loadProgram image s = (t, .loaded) → t.Inv

/-- `set_input` replaces the input queue and nothing else (70_reset_and_hazards.md section 2). That a
rejected call leaves the queue as it was is the spec's decision D11. -/
def Obligations.SetInputReplacesTheQueueOrRejects : Prop :=
  ∀ (values : List Int) (s : State),
    ((∃ v ∈ values, v < 0 ∨ 999 < v) → setInput values s = (s, .inputError)) ∧
    ((∀ v ∈ values, 0 ≤ v ∧ v ≤ 999) →
      ∃ ws : List Word, ws.map (fun w => (w.val : Int)) = values ∧
        setInput values s = ({ s with inq := ws }, .inputSet))

/-- The host has no move while `run()` is in progress (70_reset_and_hazards.md, the table of host
actions; the spec's decision D12); that the model refuses it by name is log entry 11. -/
def Obligations.HostHasNoMoveDuringARun : Prop :=
  ∀ (x : HostAction) (e : Engine), e.running = true → hostAct x e = .refused .hostDuringRun

/-- `run()` begins on a ready core, returns at once on a halted or a faulted one without a step (the
spec's decisions D8 and D9), and is not modelled on an unloaded one (its decision D10). -/
def Obligations.RunBeginsOnlyOnAReadyCore : Prop :=
  ∀ s : State,
    (s.status = .ready → hostAct .run ⟨s, false⟩ = .next (⟨s, true⟩, .runStarted)) ∧
    (s.status = .halted → hostAct .run ⟨s, false⟩ = .next (⟨s, false⟩, .outputs s.outq)) ∧
    (∀ c, s.status = .faulted c → hostAct .run ⟨s, false⟩ = .next (⟨s, false⟩, .runError c)) ∧
    (s.status = .unloaded → hostAct .run ⟨s, false⟩ = .refused .unloaded)

/-- The host reads every state element of a core that is not running, and changes none
(70_reset_and_hazards.md section 2, the table of host actions; 60_exceptions.md section 4 for a stopped
core, and the spec's decision D17 for the output queue after a fault). -/
def Obligations.HostReadsTheWholeState : Prop :=
  ∀ s : State, hostAct .readState ⟨s, false⟩ = .next (⟨s, false⟩, .stateRead s)

/-- The only way out of a halted or faulted state is a successful `load_program` (60_exceptions.md
section 4; the spec's decision D9): any other move of the host, and the loop of `run()`, leave the run
status as it is. -/
def Obligations.OnlyALoadLeavesAStoppedState : Prop :=
  ∀ e : Engine, (e.core.status = .halted ∨ ∃ c, e.core.status = .faulted c) →
    (tick e).1.core = e.core ∧
    ∀ (x : HostAction) (e' : Engine) (r : HostReply), hostAct x e = .next (e', r) → r ≠ .loaded →
      e'.core.status = e.core.status

/-- The end of a run (60_exceptions.md section 5): from a ready core the loop of `run()` is still going
with the core ready, or it has returned the output queue of a halted core without a fault, or it has
reported the fault of a core that is not halted; in no other way. -/
def Obligations.RunEndsByHaltOrByFault : Prop :=
  ∀ (n : Nat) (s t : State) (r : Option HostReply), s.status = .ready → runFor n s = (t, r) →
    (r = none ∧ t.status = .ready) ∨
    (r = some (.outputs t.outq) ∧ t.halted = true ∧ t.fault = .none) ∨
    (r = some (.runError t.fault) ∧ t.fault ≠ .none ∧ t.halted = false)

/-- A run has one end (70_reset_and_hazards.md, determinism): once the loop has answered, allowing it
more steps changes neither the answer nor the state. -/
def Obligations.AnEndedRunStaysEnded : Prop :=
  ∀ (n k : Nat) (s t : State) (r : HostReply), runFor n s = (t, some r) →
    runFor (n + k) s = (t, some r)

/-- A branch to itself is a legal infinite execution: the step changes nothing, and the run is still
going after any number of steps; there is no step limit (43_control.md, BRA's corner cases; the spec's
decision D14). -/
def Obligations.BranchToItselfNeverEnds : Prop :=
  ∀ s : State, s.status = .ready → s.pc ≤ 99 → (Memory.read s.mem s.pc).val = 600 + s.pc →
    step s = .next s ∧ ∀ n, runFor n s = (s, none)

/-- The engine the host sees, iterated while `run()` is in progress, agrees with the loop of `run()`:
the same core after any number of iterations, running exactly while the loop has not answered
(R96). -/
def Obligations.EngineIterationsFollowTheRunLoop : Prop :=
  ∀ (n : Nat) (s : State), s.status = .ready →
    ticks n ⟨s, true⟩ = ⟨(runFor n s).1, (runFor n s).2.isNone⟩

/-- Every engine that the host's moves and the run's iterations can reach meets the invariant, and is
running only while its core is ready (70_reset_and_hazards.md sections 1 and 2). -/
def Obligations.ReachableEnginesMeetTheInvariant : Prop :=
  ∀ e : Engine, Reachable e → e.Inv

/-- Every move of the host that is answered, and every iteration of the loop of `run()`, keeps the
engine's invariant, from every engine that meets it, reached or not. The engine is the model's form of
the host interface (log entry 11), and the canonical form in its invariant the model's choice (log entry
2). -/
def Obligations.EngineMovesKeepTheInvariant : Prop :=
  ∀ e : Engine, e.Inv →
    (∀ (x : HostAction) (e' : Engine) (r : HostReply), hostAct x e = .next (e', r) → e'.Inv) ∧
    (tick e).1.Inv

/-- A fresh engine meets the invariant that every move keeps, whatever its free values (log entry 5). -/
def Obligations.FreshEngineMeetsTheInvariant : Prop := Engine.constructed.Inv
end

