-- ==== Sys2Proof/Laws/Alu.lean ====
section
/-! SUPPORT. Everything the ALU can answer, as numbers (41_arithmetic.md R103). -/

namespace Sys2Proof.Machine

theorem aluAdd_val (x m : Word) :
    (aluAdd x m).1.val = if x.val + m.val > 999 then x.val + m.val - 1000 else x.val + m.val := by
  unfold aluAdd
  split <;> rfl

theorem aluAdd_flag (x m : Word) : (aluAdd x m).2 = decide (x.val + m.val ≤ 999) := by
  unfold aluAdd
  split <;> simp <;> omega

theorem aluSub_val (x m : Word) :
    (aluSub x m).1.val = if x.val < m.val then x.val + 1000 - m.val else x.val - m.val := by
  unfold aluSub
  split <;> dsimp only <;> split <;> omega

theorem aluSub_flag (x m : Word) : (aluSub x m).2 = decide (m.val ≤ x.val) := by
  unfold aluSub
  split <;> simp <;> omega

@[simp] theorem isZero_iff (x : Word) : isZero x = true ↔ x = 0 := by simp [isZero]

end Sys2Proof.Machine
end

