-- ==== Sys2Proof/Laws/Decode.lean ====
section
/-! SUPPORT. The decoder's digits, and that it gives well-formed instructions only. -/

namespace Sys2Proof

theorem operandOf_le (w : Word) : operandOf w ≤ 99 := by unfold operandOf; omega

theorem opcodeOf_le (w : Word) : opcodeOf w ≤ 9 := by unfold opcodeOf; omega

@[simp] theorem twoDigits_iff (a : Nat) : twoDigits a = true ↔ a ≤ 99 := by simp [twoDigits]

theorem decodeNine_wellFormed {a : Nat} (ha : a ≤ 99) : (decodeNine a).wellFormed = true := by
  unfold decodeNine
  split <;> simp_all [Instr.wellFormed]
  omega

theorem decodeDigits_wellFormed (op : Nat) {a : Nat} (ha : a ≤ 99) :
    (decodeDigits op a).wellFormed = true := by
  unfold decodeDigits
  split <;> first | exact decodeNine_wellFormed ha | simp [Instr.wellFormed, ha]

/-- Every word decodes to a well-formed instruction (R68). -/
theorem decodeWord_wellFormed (w : Word) : (decodeWord w).wellFormed = true :=
  decodeDigits_wellFormed _ (operandOf_le w)

theorem decode_word (w : Word) : decode w.val = .ok (decodeWord w) := by simp [decode]

end Sys2Proof
end

