-- ==== Sys2Proof/Laws/Memory.lean ====
section
/-! SUPPORT. The laws of the Memory Store: a read after a write, and the canonical form kept by every
operation (log entry 2). -/

namespace Sys2Proof.Machine

@[simp] theorem inStore_iff (a : Nat) : inStore a = true ↔ a ≤ 99 := by
  simp only [inStore, Config.memCells, decide_eq_true_eq]
  omega

@[simp] theorem inStore_false_iff (a : Nat) : inStore a = false ↔ 99 < a := by
  simp only [inStore, Config.memCells, decide_eq_false_iff_not]
  omega

@[simp] theorem Memory.read_nil (a : Nat) : Memory.read [] a = 0 := rfl

theorem Memory.read_cons (b : Nat) (v : Word) (m : Memory) (a : Nat) :
    Memory.read ((b, v) :: m) a = if a = b then v else Memory.read m a := rfl

theorem Memory.read_erase (m : Memory) (a b : Nat) :
    Memory.read (Memory.erase m a) b = if b = a then 0 else Memory.read m b := by
  induction m with
  | nil => simp [Memory.erase]
  | cons p m ih =>
    obtain ⟨c, v⟩ := p
    simp only [Memory.erase] at ih
    by_cases hc : c = a
    · subst hc
      by_cases hb : b = c <;> simp_all [Memory.erase, Memory.read_cons]
    · by_cases hb : b = c
      · subst hb; simp [Memory.erase, Memory.read_cons, hc]
      · simp [Memory.erase, Memory.read_cons, hc, hb, ih]

/-- Where no entry is at `a`, inserting one there changes the read at `a` alone. -/
theorem Memory.read_insert (m : Memory) (a : Nat) (v : Word) (ha : ∀ p ∈ m, p.1 ≠ a) (b : Nat) :
    Memory.read (Memory.insert m a v) b = if b = a then v else Memory.read m b := by
  induction m with
  | nil => simp [Memory.insert, Memory.read_cons]
  | cons p m ih =>
    obtain ⟨c, u⟩ := p
    have hc : c ≠ a := ha (c, u) (by simp)
    have ih := ih fun p hp => ha p (by simp [hp])
    unfold Memory.insert
    split
    · rfl
    · rw [Memory.read_cons, ih, Memory.read_cons]
      by_cases hb : b = c
      · subst hb; simp [hc]
      · simp [hb]

theorem Memory.mem_erase {m : Memory} {a : Nat} {p : Nat × Word} :
    p ∈ Memory.erase m a ↔ p ∈ m ∧ p.1 ≠ a := by
  simp [Memory.erase]

/-- A read after a write, in every memory: the value written at its own address, and every other
address as before (R41, R42, R50). -/
@[simp] theorem Memory.read_write (m : Memory) (a : Nat) (v : Word) (b : Nat) :
    Memory.read (Memory.write m a v) b = if b = a then v else Memory.read m b := by
  unfold Memory.write
  split
  · next hv => subst hv; exact Memory.read_erase m a b
  · rw [Memory.read_insert _ _ _ fun p hp => (Memory.mem_erase.1 hp).2, Memory.read_erase]
    by_cases hb : b = a <;> simp [hb]

theorem Memory.mem_insert {m : Memory} {a : Nat} {v : Word} {p : Nat × Word}
    (hp : p ∈ Memory.insert m a v) : p = (a, v) ∨ p ∈ m := by
  induction m with
  | nil => simpa [Memory.insert] using hp
  | cons q m ih =>
    unfold Memory.insert at hp
    split at hp
    · simpa using hp
    · rcases List.mem_cons.1 hp with h | h
      · exact .inr (by simp [h])
      · rcases ih h with h | h
        · exact .inl h
        · exact .inr (by simp [h])

theorem Memory.wf_nil : Memory.wf [] := by decide

theorem Memory.erase_wf {m : Memory} (a : Nat) (h : Memory.wf m) : Memory.wf (Memory.erase m a) :=
  ⟨h.1.filter _, fun p hp => h.2 p (Memory.mem_erase.1 hp).1⟩

theorem Memory.insert_wf {m : Memory} {a : Nat} {v : Word} (h : Memory.wf m) (ha : a ≤ 99) (hv : v ≠ 0)
    (hm : ∀ p ∈ m, p.1 ≠ a) : Memory.wf (Memory.insert m a v) := by
  refine ⟨?_, fun p hp => (Memory.mem_insert hp).elim (fun e => by simp [e, ha, hv]) (h.2 p)⟩
  obtain ⟨hsorted, -⟩ := h
  induction m with
  | nil => simp [Memory.insert]
  | cons q m ih =>
    obtain ⟨c, u⟩ := q
    have hc : c ≠ a := hm (c, u) (by simp)
    obtain ⟨hlow, hrest⟩ := List.pairwise_cons.1 hsorted
    unfold Memory.insert
    split
    · next hac =>
      refine List.pairwise_cons.2 ⟨fun p hp => ?_, hsorted⟩
      rcases List.mem_cons.1 hp with e | hp
      · simp [e, hac]
      · exact hac.trans (hlow p hp)
    · refine List.pairwise_cons.2 ⟨fun p hp => ?_, ih (fun p hp => hm p (by simp [hp])) hrest⟩
      rcases Memory.mem_insert hp with e | hp
      · simp only [e]; omega
      · exact hlow p hp

/-- A write to a cell of the store keeps the canonical form. -/
theorem Memory.write_wf {m : Memory} {a : Nat} {v : Word} (h : Memory.wf m) (ha : a ≤ 99) :
    Memory.wf (Memory.write m a v) := by
  unfold Memory.write
  split
  · exact Memory.erase_wf a h
  · next hv => exact Memory.insert_wf (Memory.erase_wf a h) ha hv fun p hp => (Memory.mem_erase.1 hp).2

theorem reset_mem_wf : Memory.wf State.reset.mem := by decide

end Sys2Proof.Machine
end

