-- ==== Sys2Proof/Laws/State.lean ====
section
/-! SUPPORT. What each writer of a register does to each field, so that no proof unfolds a record
update. -/

namespace Sys2Proof.Machine

/-! `setAcc` writes `acc` alone. -/
section
variable (s : State) (v : Word)
@[simp] theorem State.setAcc_acc : (s.setAcc v).acc = v := rfl
@[simp] theorem State.setAcc_pc : (s.setAcc v).pc = s.pc := rfl
@[simp] theorem State.setAcc_pflag : (s.setAcc v).pflag = s.pflag := rfl
@[simp] theorem State.setAcc_halted : (s.setAcc v).halted = s.halted := rfl
@[simp] theorem State.setAcc_fault : (s.setAcc v).fault = s.fault := rfl
@[simp] theorem State.setAcc_mem : (s.setAcc v).mem = s.mem := rfl
@[simp] theorem State.setAcc_inq : (s.setAcc v).inq = s.inq := rfl
@[simp] theorem State.setAcc_outq : (s.setAcc v).outq = s.outq := rfl
@[simp] theorem State.setAcc_loaded : (s.setAcc v).loaded = s.loaded := rfl
end

/-! `setPc` writes `pc` alone. -/
section
variable (s : State) (p : Nat)
@[simp] theorem State.setPc_acc : (s.setPc p).acc = s.acc := rfl
@[simp] theorem State.setPc_pc : (s.setPc p).pc = p := rfl
@[simp] theorem State.setPc_pflag : (s.setPc p).pflag = s.pflag := rfl
@[simp] theorem State.setPc_halted : (s.setPc p).halted = s.halted := rfl
@[simp] theorem State.setPc_fault : (s.setPc p).fault = s.fault := rfl
@[simp] theorem State.setPc_mem : (s.setPc p).mem = s.mem := rfl
@[simp] theorem State.setPc_inq : (s.setPc p).inq = s.inq := rfl
@[simp] theorem State.setPc_outq : (s.setPc p).outq = s.outq := rfl
@[simp] theorem State.setPc_loaded : (s.setPc p).loaded = s.loaded := rfl
end

/-! `setPflag` writes `pflag` alone. -/
section
variable (s : State) (b : Bool)
@[simp] theorem State.setPflag_acc : (s.setPflag b).acc = s.acc := rfl
@[simp] theorem State.setPflag_pc : (s.setPflag b).pc = s.pc := rfl
@[simp] theorem State.setPflag_pflag : (s.setPflag b).pflag = b := rfl
@[simp] theorem State.setPflag_halted : (s.setPflag b).halted = s.halted := rfl
@[simp] theorem State.setPflag_fault : (s.setPflag b).fault = s.fault := rfl
@[simp] theorem State.setPflag_mem : (s.setPflag b).mem = s.mem := rfl
@[simp] theorem State.setPflag_inq : (s.setPflag b).inq = s.inq := rfl
@[simp] theorem State.setPflag_outq : (s.setPflag b).outq = s.outq := rfl
@[simp] theorem State.setPflag_loaded : (s.setPflag b).loaded = s.loaded := rfl
end

/-! `setHalted` writes `halted` alone. -/
section
variable (s : State) (b : Bool)
@[simp] theorem State.setHalted_acc : (s.setHalted b).acc = s.acc := rfl
@[simp] theorem State.setHalted_pc : (s.setHalted b).pc = s.pc := rfl
@[simp] theorem State.setHalted_pflag : (s.setHalted b).pflag = s.pflag := rfl
@[simp] theorem State.setHalted_halted : (s.setHalted b).halted = b := rfl
@[simp] theorem State.setHalted_fault : (s.setHalted b).fault = s.fault := rfl
@[simp] theorem State.setHalted_mem : (s.setHalted b).mem = s.mem := rfl
@[simp] theorem State.setHalted_inq : (s.setHalted b).inq = s.inq := rfl
@[simp] theorem State.setHalted_outq : (s.setHalted b).outq = s.outq := rfl
@[simp] theorem State.setHalted_loaded : (s.setHalted b).loaded = s.loaded := rfl
end

/-! `setFault` writes `fault` alone. -/
section
variable (s : State) (c : FaultCause)
@[simp] theorem State.setFault_acc : (s.setFault c).acc = s.acc := rfl
@[simp] theorem State.setFault_pc : (s.setFault c).pc = s.pc := rfl
@[simp] theorem State.setFault_pflag : (s.setFault c).pflag = s.pflag := rfl
@[simp] theorem State.setFault_halted : (s.setFault c).halted = s.halted := rfl
@[simp] theorem State.setFault_fault : (s.setFault c).fault = c := rfl
@[simp] theorem State.setFault_mem : (s.setFault c).mem = s.mem := rfl
@[simp] theorem State.setFault_inq : (s.setFault c).inq = s.inq := rfl
@[simp] theorem State.setFault_outq : (s.setFault c).outq = s.outq := rfl
@[simp] theorem State.setFault_loaded : (s.setFault c).loaded = s.loaded := rfl
end

/-! `setMem` writes `mem` alone. -/
section
variable (s : State) (m : Memory)
@[simp] theorem State.setMem_acc : (s.setMem m).acc = s.acc := rfl
@[simp] theorem State.setMem_pc : (s.setMem m).pc = s.pc := rfl
@[simp] theorem State.setMem_pflag : (s.setMem m).pflag = s.pflag := rfl
@[simp] theorem State.setMem_halted : (s.setMem m).halted = s.halted := rfl
@[simp] theorem State.setMem_fault : (s.setMem m).fault = s.fault := rfl
@[simp] theorem State.setMem_mem : (s.setMem m).mem = m := rfl
@[simp] theorem State.setMem_inq : (s.setMem m).inq = s.inq := rfl
@[simp] theorem State.setMem_outq : (s.setMem m).outq = s.outq := rfl
@[simp] theorem State.setMem_loaded : (s.setMem m).loaded = s.loaded := rfl
end

/-! `setInq` writes `inq` alone. -/
section
variable (s : State) (q : List Word)
@[simp] theorem State.setInq_acc : (s.setInq q).acc = s.acc := rfl
@[simp] theorem State.setInq_pc : (s.setInq q).pc = s.pc := rfl
@[simp] theorem State.setInq_pflag : (s.setInq q).pflag = s.pflag := rfl
@[simp] theorem State.setInq_halted : (s.setInq q).halted = s.halted := rfl
@[simp] theorem State.setInq_fault : (s.setInq q).fault = s.fault := rfl
@[simp] theorem State.setInq_mem : (s.setInq q).mem = s.mem := rfl
@[simp] theorem State.setInq_inq : (s.setInq q).inq = q := rfl
@[simp] theorem State.setInq_outq : (s.setInq q).outq = s.outq := rfl
@[simp] theorem State.setInq_loaded : (s.setInq q).loaded = s.loaded := rfl
end

/-! `setOutq` writes `outq` alone. -/
section
variable (s : State) (q : List Word)
@[simp] theorem State.setOutq_acc : (s.setOutq q).acc = s.acc := rfl
@[simp] theorem State.setOutq_pc : (s.setOutq q).pc = s.pc := rfl
@[simp] theorem State.setOutq_pflag : (s.setOutq q).pflag = s.pflag := rfl
@[simp] theorem State.setOutq_halted : (s.setOutq q).halted = s.halted := rfl
@[simp] theorem State.setOutq_fault : (s.setOutq q).fault = s.fault := rfl
@[simp] theorem State.setOutq_mem : (s.setOutq q).mem = s.mem := rfl
@[simp] theorem State.setOutq_inq : (s.setOutq q).inq = s.inq := rfl
@[simp] theorem State.setOutq_outq : (s.setOutq q).outq = q := rfl
@[simp] theorem State.setOutq_loaded : (s.setOutq q).loaded = s.loaded := rfl
end

/-! `advance` writes `pc` alone. -/
section
variable (s : State)
@[simp] theorem State.advance_acc : s.advance.acc = s.acc := rfl
@[simp] theorem State.advance_pc : s.advance.pc = s.pc + 1 := rfl
@[simp] theorem State.advance_pflag : s.advance.pflag = s.pflag := rfl
@[simp] theorem State.advance_halted : s.advance.halted = s.halted := rfl
@[simp] theorem State.advance_fault : s.advance.fault = s.fault := rfl
@[simp] theorem State.advance_mem : s.advance.mem = s.mem := rfl
@[simp] theorem State.advance_inq : s.advance.inq = s.inq := rfl
@[simp] theorem State.advance_outq : s.advance.outq = s.outq := rfl
@[simp] theorem State.advance_loaded : s.advance.loaded = s.loaded := rfl
end

end Sys2Proof.Machine
end

