-- ==== Sys2Proof/Laws/Ops.lean ====
section
/-! SUPPORT. What each shared operation answers, said once; proofs cite these and do not unfold the
operations. -/

namespace Sys2Proof.Machine

@[simp] theorem raiseFault_eq (c : FaultCause) (s : State) : raiseFault c s = .next (s.setFault c) := rfl

/-! ### The run status -/

theorem status_ready_iff (s : State) :
    s.status = .ready ↔ s.loaded = true ∧ s.fault = .none ∧ s.halted = false := by
  unfold State.status
  split <;> simp_all

theorem status_halted_iff (s : State) :
    s.status = .halted ↔ s.loaded = true ∧ s.fault = .none ∧ s.halted = true := by
  unfold State.status
  split <;> simp_all

theorem status_faulted_iff (s : State) (c : FaultCause) :
    s.status = .faulted c ↔ s.loaded = true ∧ s.fault = c ∧ c ≠ .none := by
  unfold State.status
  split <;> simp_all
  grind

theorem status_unloaded_iff (s : State) : s.status = .unloaded ↔ s.loaded = false := by
  unfold State.status
  split <;> simp_all

/-! ### The gate, the fetch and the operands -/

theorem whenReady_next_iff (s : State) (k : Result) (t : State) :
    whenReady s k = .next t ↔ s.status = .ready ∧ k = .next t := by
  unfold whenReady
  split <;> simp_all

theorem whenReady_of_ready {s : State} (h : s.status = .ready) (k : Result) : whenReady s k = k := by
  simp [whenReady, h]

theorem withFetched_inside {s : State} (h : s.pc ≤ 99) (k : Word → Result) :
    withFetched s k = k (Memory.read s.mem s.pc) := by
  simp [withFetched, h]

theorem withFetched_outside {s : State} (h : 99 < s.pc) (k : Word → Result) :
    withFetched s k = .next (s.setFault .memory) := by
  simp [withFetched, Nat.not_le.2 h]

theorem withCell_inside {a : Nat} (h : a ≤ 99) (s : State) (k : Word → Result) :
    withCell a s k = k (Memory.read s.mem a) := by
  simp [withCell, h]

theorem withCell_outside {a : Nat} (h : 99 < a) (s : State) (k : Word → Result) :
    withCell a s k = .next (s.setFault .memory) := by
  simp [withCell, Nat.not_le.2 h]

theorem intoCell_inside {a : Nat} (h : a ≤ 99) (v : Word) (s : State) (k : State → Result) :
    intoCell a v s k = k (s.setMem (Memory.write s.mem a v)) := by
  simp [intoCell, h]

theorem intoCell_outside {a : Nat} (h : 99 < a) (v : Word) (s : State) (k : State → Result) :
    intoCell a v s k = .next (s.setFault .memory) := by
  simp [intoCell, Nat.not_le.2 h]

theorem branchIf_eq (c : Bool) (a : Nat) (s : State) :
    branchIf c a s = s.setPc (if c then a else s.pc + 1) := by
  cases c <;> rfl

end Sys2Proof.Machine
end

