-- ==== Sys2Proof/Laws/Exec.lean ====
section
/-! SUPPORT. Everything an instruction and a step can answer: exec always gives a next state, and it is
one of the few shapes of 40_fetch_decode.md R95. -/

namespace Sys2Proof.Machine

/-- Every instruction answers a next state, in every state. -/
theorem exec_next (i : Instr) (s : State) : ∃ t, exec i s = .next t := by
  cases i <;>
    simp only [exec, execHlt, execAdd, execSub, aluStep, execSta, execIllegal4xx, execLda, execBra, execBrz,
      execBrp, execIllegal900, execInp, execOut, execIllegal9xx, withCell, intoCell, raiseFault]
  all_goals first | exact ⟨_, rfl⟩ | (split <;> exact ⟨_, rfl⟩)

/-- The cases of a step that answers a next state: the core was ready, and either the fetch raised
MemoryError or the decoded instruction ran (R90 to R95). -/
theorem step_cases {s t : State} (h : step s = .next t) :
    s.status = .ready ∧
      ((99 < s.pc ∧ t = s.setFault .memory) ∨
        (s.pc ≤ 99 ∧ exec (decodeWord (Memory.read s.mem s.pc)) s = .next t)) := by
  obtain ⟨hready, h⟩ := (whenReady_next_iff _ _ _).1 h
  refine ⟨hready, ?_⟩
  rcases Nat.lt_or_ge 99 s.pc with hp | hp
  · rw [withFetched_outside hp] at h
    exact .inl ⟨hp, by injection h with h; exact h.symm⟩
  · rw [withFetched_inside hp] at h
    exact .inr ⟨hp, h⟩

/-! ### The word placed for the next fetch -/

theorem placeFetchWord_ready (s : State) {w : Nat} (hw : w < 1000) :
    (placeFetchWord s w).status = .ready ∧ (placeFetchWord s w).pc ≤ 99 := by
  simp only [placeFetchWord, dif_pos hw, status_ready_iff, true_and]
  split
  · next h => exact (inStore_iff _).1 h
  · omega

/-- Whatever the state, the very next step runs the word that was placed (log entries 3 and 9). -/
theorem step_withFetchWord (s : State) (nbits : Nat) {w : Nat} (hw : w < 1000) :
    step (s.withFetchWord nbits w) = exec (decodeWord ⟨w, hw⟩) (s.withFetchWord nbits w) := by
  obtain ⟨hready, hp⟩ := placeFetchWord_ready s hw
  unfold State.withFetchWord step
  rw [whenReady_of_ready hready, withFetched_inside hp]
  congr 2
  simp only [placeFetchWord, dif_pos hw, Memory.read_write, if_true]

end Sys2Proof.Machine
end

