-- ==== Sys2Proof/Laws/HostOps.lean ====
section
/-! SUPPORT. What the host operations answer, said once. -/

namespace Sys2Proof.Machine

theorem wordOf?_eq_some {v : Int} {w : Word} (h : wordOf? v = some w) : v = w.val := by
  unfold wordOf? at h
  split at h
  · cases h; simp; omega
  · cases h

theorem wordsOf?_eq_some {vs : List Int} {ws : List Word} (h : wordsOf? vs = some ws) :
    vs = ws.map fun w => (w.val : Int) := by
  induction vs generalizing ws with
  | nil => cases h; rfl
  | cons v vs ih =>
    simp only [wordsOf?] at h
    split at h
    · next hv hvs => cases h; simp [← wordOf?_eq_some hv, ← ih hvs]
    · cases h

/-- A list of integers is a list of words exactly when every value lies in [0, 999] (R170, R173). -/
theorem wordsOf?_isSome_iff (vs : List Int) :
    (wordsOf? vs).isSome = true ↔ ∀ v ∈ vs, 0 ≤ v ∧ v ≤ 999 := by
  induction vs with
  | nil => simp [wordsOf?]
  | cons v vs ih =>
    have hv : (wordOf? v).isSome = true ↔ 0 ≤ v ∧ v ≤ 999 := by unfold wordOf?; split <;> simp_all
    rw [List.forall_mem_cons, ← ih, ← hv]
    rw [wordsOf?]
    cases wordOf? v <;> cases wordsOf? vs <;> simp

/-- The cells of a placed image. -/
theorem placeImage_read (base : Nat) (ws : List Word) (a : Nat) :
    Memory.read (placeImage base ws) a = if base ≤ a then (ws[a - base]?).getD 0 else 0 := by
  induction ws generalizing base with
  | nil => simp [placeImage]
  | cons w ws ih =>
    have hstep : ∀ h : base < a, a - base = (a - (base + 1)) + 1 := by omega
    unfold placeImage
    split
    · next hw =>
      rw [ih]
      rcases Nat.lt_trichotomy base a with h | h | h
      · rw [if_pos (by omega), if_pos (by omega), hstep h, List.getElem?_cons_succ]
      · subst h; simp [hw]
      · rw [if_neg (by omega), if_neg (by omega)]
    · rw [Memory.read_cons, ih]
      rcases Nat.lt_trichotomy base a with h | h | h
      · rw [if_neg (by omega), if_pos (by omega), if_pos (by omega), hstep h, List.getElem?_cons_succ]
      · subst h; simp
      · rw [if_neg (by omega), if_neg (by omega), if_neg (by omega)]

theorem placeImage_mem {base : Nat} {ws : List Word} {p : Nat × Word} (hp : p ∈ placeImage base ws) :
    base ≤ p.1 ∧ p.1 < base + ws.length ∧ p.2 ≠ 0 := by
  induction ws generalizing base with
  | nil => simp [placeImage] at hp
  | cons w ws ih =>
    unfold placeImage at hp
    split at hp
    · obtain ⟨hlow, hhigh, h0⟩ := ih hp
      exact ⟨by omega, by simp only [List.length_cons]; omega, h0⟩
    · next hw =>
      rcases List.mem_cons.1 hp with e | hp
      · simp [e, hw]
      · obtain ⟨hlow, hhigh, h0⟩ := ih hp
        exact ⟨by omega, by simp only [List.length_cons]; omega, h0⟩

/-- An image of at most 100 words is placed in canonical form. -/
theorem placeImage_wf {ws : List Word} (h : ws.length ≤ 100) : Memory.wf (placeImage 0 ws) := by
  refine ⟨?_, fun p hp => ?_⟩
  · suffices ∀ base, (placeImage base ws).Pairwise fun p q => p.1 < q.1 from this 0
    clear h
    induction ws with
    | nil => simp [placeImage]
    | cons w ws ih =>
      intro base
      unfold placeImage
      split
      · exact ih _
      · exact List.pairwise_cons.2 ⟨fun p hp => (by have := (placeImage_mem hp).1; simp only; omega), ih _⟩
  · have := placeImage_mem hp
    exact ⟨by omega, this.2.2⟩

/-- The two answers of `load_program` (R170, R171). -/
theorem loadProgram_cases (image : List Int) (s : State) :
    loadProgram image s = (s, .loadError) ∨
      ∃ ws, image.length ≤ 100 ∧ wordsOf? image = some ws ∧ loadProgram image s = (loadedState ws s, .loaded) := by
  unfold loadProgram
  split
  · exact .inl rfl
  · next hlen =>
    cases hws : wordsOf? image with
    | none => exact .inl rfl
    | some ws => exact .inr ⟨ws, Nat.not_lt.1 hlen, rfl, rfl⟩

/-- The two answers of `set_input` (R173). -/
theorem setInput_cases (values : List Int) (s : State) :
    setInput values s = (s, .inputError) ∨
      ∃ ws, wordsOf? values = some ws ∧ setInput values s = (s.setInq ws, .inputSet) := by
  unfold setInput
  cases hws : wordsOf? values with
  | none => exact .inl rfl
  | some ws => exact .inr ⟨ws, rfl, rfl⟩

theorem runReply_of_ready {s : State} (h : s.status = .ready) : runReply s = none := by
  simp [runReply, h]

end Sys2Proof.Machine
end

