-- ==== Sys2Proof/Laws/PerInstr.lean ====
section
/-! SUPPORT. Statements about every instruction as syntax, one lemma per constructor (LAWS.json). -/

namespace Sys2Proof.Laws

/-- The word of a well-formed instruction lies in the range of its row of spec/opcode_table.json, and
so is a cell value (30_encoding.md R63). -/
def EncodeInRow.Statement (i : Instr) : Prop :=
  i.wellFormed = true → (rowRange i).1 ≤ encode i ∧ encode i ≤ (rowRange i).2 ∧ encode i < 1000

theorem EncodeInRow.hlt (a : Nat) : EncodeInRow.Statement (.hlt a) := by
  simp [EncodeInRow.Statement, Instr.wellFormed, rowRange, encode]; omega
theorem EncodeInRow.add (a : Nat) : EncodeInRow.Statement (.add a) := by
  simp [EncodeInRow.Statement, Instr.wellFormed, rowRange, encode]; omega
theorem EncodeInRow.sub (a : Nat) : EncodeInRow.Statement (.sub a) := by
  simp [EncodeInRow.Statement, Instr.wellFormed, rowRange, encode]; omega
theorem EncodeInRow.sta (a : Nat) : EncodeInRow.Statement (.sta a) := by
  simp [EncodeInRow.Statement, Instr.wellFormed, rowRange, encode]; omega
theorem EncodeInRow.illegal4xx (a : Nat) : EncodeInRow.Statement (.illegal4xx a) := by
  simp [EncodeInRow.Statement, Instr.wellFormed, rowRange, encode]; omega
theorem EncodeInRow.lda (a : Nat) : EncodeInRow.Statement (.lda a) := by
  simp [EncodeInRow.Statement, Instr.wellFormed, rowRange, encode]; omega
theorem EncodeInRow.bra (a : Nat) : EncodeInRow.Statement (.bra a) := by
  simp [EncodeInRow.Statement, Instr.wellFormed, rowRange, encode]; omega
theorem EncodeInRow.brz (a : Nat) : EncodeInRow.Statement (.brz a) := by
  simp [EncodeInRow.Statement, Instr.wellFormed, rowRange, encode]; omega
theorem EncodeInRow.brp (a : Nat) : EncodeInRow.Statement (.brp a) := by
  simp [EncodeInRow.Statement, Instr.wellFormed, rowRange, encode]; omega
theorem EncodeInRow.illegal900 : EncodeInRow.Statement .illegal900 := by
  simp [EncodeInRow.Statement, rowRange, encode]
theorem EncodeInRow.inp : EncodeInRow.Statement .inp := by
  simp [EncodeInRow.Statement, rowRange, encode]
theorem EncodeInRow.out : EncodeInRow.Statement .out := by
  simp [EncodeInRow.Statement, rowRange, encode]
theorem EncodeInRow.illegal9xx (a : Nat) : EncodeInRow.Statement (.illegal9xx a) := by
  simp [EncodeInRow.Statement, Instr.wellFormed, rowRange, encode]; omega

end Sys2Proof.Laws
end

