-- ==== Sys2Proof/Tests/Slice0.lean ====
section
/-! SUPPORT. Tests of one step each, with the results of 95_test_vectors.md (the vector is named), the
refusals of WellFormed, and a witness for each statement that has hypotheses. -/

namespace Sys2Proof.Tests

open Sys2Proof Sys2Proof.Machine

/-- A ready core with these cells, accumulator, program counter and flag, and no input or output. -/
def ready (cells : Memory) (acc : Word) (pc : Nat) (pflag : Bool := true) : State :=
  { State.reset with acc := acc, pc := pc, pflag := pflag, mem := cells }

/-- The next state, where there is one. -/
def after (r : Result) : Option State :=
  match r with
  | .next t => some t
  | .fault _ => none
  | .refused _ => none

/-- What a step leaves in `acc`, `pflag` and `pc`. -/
def regs (r : Result) : Option (Word × Bool × Nat) := (after r).map fun t => (t.acc, t.pflag, t.pc)

/-- What a step leaves in `fault`, `halted` and `pc`. -/
def stops (r : Result) : Option (FaultCause × Bool × Nat) :=
  (after r).map fun t => (t.fault, t.halted, t.pc)

/-! ### WellFormed refuses an operand of three digits, and a sub-code that is INP's or OUT's -/

theorem test_hlt_operand_refused : (Instr.hlt 100).wellFormed = false := by decide
theorem test_add_operand_refused : (Instr.add 100).wellFormed = false := by decide
theorem test_sub_operand_refused : (Instr.sub 100).wellFormed = false := by decide
theorem test_sta_operand_refused : (Instr.sta 100).wellFormed = false := by decide
theorem test_illegal4xx_operand_refused : (Instr.illegal4xx 100).wellFormed = false := by decide
theorem test_lda_operand_refused : (Instr.lda 100).wellFormed = false := by decide
theorem test_bra_operand_refused : (Instr.bra 100).wellFormed = false := by decide
theorem test_brz_operand_refused : (Instr.brz 100).wellFormed = false := by decide
theorem test_brp_operand_refused : (Instr.brp 100).wellFormed = false := by decide
theorem test_illegal9xx_operand_refused : (Instr.illegal9xx 100).wellFormed = false := by decide
theorem test_illegal9xx_subcode_refused : (Instr.illegal9xx 2).wellFormed = false := by decide

/-! ### Words written out from 30_encoding.md R63, with both ends of every row -/

theorem test_decode_hlt : decode 0 = .ok (.hlt 0) ∧ decode 99 = .ok (.hlt 99) := ⟨rfl, rfl⟩
theorem test_decode_add : decode 100 = .ok (.add 0) ∧ decode 199 = .ok (.add 99) := ⟨rfl, rfl⟩
theorem test_decode_sub : decode 200 = .ok (.sub 0) ∧ decode 299 = .ok (.sub 99) := ⟨rfl, rfl⟩
theorem test_decode_sta : decode 300 = .ok (.sta 0) ∧ decode 399 = .ok (.sta 99) := ⟨rfl, rfl⟩
theorem test_decode_illegal4xx : decode 400 = .ok (.illegal4xx 0) ∧ decode 499 = .ok (.illegal4xx 99) :=
  ⟨rfl, rfl⟩
theorem test_decode_lda : decode 500 = .ok (.lda 0) ∧ decode 599 = .ok (.lda 99) := ⟨rfl, rfl⟩
theorem test_decode_bra : decode 600 = .ok (.bra 0) ∧ decode 699 = .ok (.bra 99) := ⟨rfl, rfl⟩
theorem test_decode_brz : decode 700 = .ok (.brz 0) ∧ decode 799 = .ok (.brz 99) := ⟨rfl, rfl⟩
theorem test_decode_brp : decode 800 = .ok (.brp 0) ∧ decode 899 = .ok (.brp 99) := ⟨rfl, rfl⟩
theorem test_decode_nine :
    decode 900 = .ok .illegal900 ∧ decode 901 = .ok .inp ∧ decode 902 = .ok .out ∧
    decode 903 = .ok (.illegal9xx 3) ∧ decode 999 = .ok (.illegal9xx 99) := ⟨rfl, rfl, rfl, rfl, rfl⟩
theorem test_decode_table_word : decodeTableWord 16 713 = some (.brz 13) ∧ decodeTableWord 16 1000 = none := by
  decide

/-! ### One step each -/

/-- Vector A3: a sum of exactly 1000. -/
theorem test_add_exactly_1000 : regs (step (ready [(0, 110), (10, 500)] 500 0)) = some (0, false, 1) := by decide
/-- Vector A7: the operand is the ADD's own cell. -/
theorem test_add_own_cell : regs (step (ready [(0, 100)] 7 0)) = some (107, true, 1) := by decide
/-- Vector S1: a difference of 0 counts as positive. -/
theorem test_sub_to_zero : regs (step (ready [(0, 210), (10, 5)] 5 0 false)) = some (0, true, 1) := by decide
/-- Vector S3: the smallest difference. -/
theorem test_sub_smallest : regs (step (ready [(0, 210), (10, 999)] 0 0)) = some (1, false, 1) := by decide
/-- Vector L2: the flag is not recomputed. -/
theorem test_lda_zero_keeps_flag : regs (step (ready [(0, 550)] 9 0)) = some (0, true, 1) := by decide
/-- Vector L3: LDA loads its own word. -/
theorem test_lda_own_word : regs (step (ready [(3, 503)] 9 3)) = some (503, true, 4) := by decide
/-- Vector T2: STA overwrites itself. -/
theorem test_sta_own_cell :
    (after (step (ready [(2, 302)] 902 2))).map (fun t => (t.mem, t.pc)) = some ([(2, 902)], 3) := by decide
/-- Vector T3: the top of memory; `pc` goes to 100. -/
theorem test_sta_top :
    (after (step (ready [(99, 399)] 7 99))).map (fun t => (t.mem, t.pc)) = some ([(99, 7)], 100) := by decide
/-- Vector B1. -/
theorem test_bra : regs (step (ready [(11, 604)] 0 11)) = some (0, true, 4) := by decide
/-- Vector Z3: BRZ ignores the flag. -/
theorem test_brz_taken : regs (step (ready [(5, 713)] 0 5 false)) = some (0, false, 13) := by decide
/-- Vector Z4: not taken at 99. -/
theorem test_brz_not_taken_top : regs (step (ready [(99, 700)] 5 99)) = some (5, true, 100) := by decide
/-- Vector P3v: BRP reads the flag, and zero is positive. -/
theorem test_brp_taken_on_zero : regs (step (ready [(3, 801)] 0 3)) = some (0, true, 1) := by decide
/-- Vector P2v. -/
theorem test_brp_not_taken : regs (step (ready [(3, 801)] 5 3 false)) = some (5, false, 4) := by decide
/-- Vector H2: the operand digits are ignored, and `pc` stays. -/
theorem test_hlt_042 : stops (step (ready [(0, 42)] 0 0)) = some (.none, true, 0) := by decide
/-- Vector I1. -/
theorem test_inp :
    (after (step { ready [(0, 901)] 0 0 false with inq := [5, 3] })).map
      (fun t => (t.acc, t.inq, t.pflag, t.pc)) = some (5, [3], false, 1) := by decide
/-- Vector I2. -/
theorem test_inp_empty : stops (step (ready [(2, 901)] 5 2)) = some (.inputEmpty, false, 2) := by decide
/-- Vector O2. -/
theorem test_out :
    (after (step { ready [(0, 902)] 0 0 with outq := [3] })).map (fun t => (t.outq, t.pc)) =
      some ([3, 0], 1) := by decide
/-- Vector F2. -/
theorem test_illegal4xx : stops (step (ready [(7, 400)] 0 7)) = some (.illegal, false, 7) := by decide
/-- Vector F3. -/
theorem test_illegal900 : stops (step (ready [(7, 900)] 0 7)) = some (.illegal, false, 7) := by decide
/-- Vector F4. -/
theorem test_illegal9xx : stops (step (ready [(7, 999)] 0 7)) = some (.illegal, false, 7) := by decide
/-- Vector F1: the fetch check. -/
theorem test_fetch_at_100 : stops (step (ready [(99, 399)] 7 100)) = some (.memory, false, 100) := by decide
/-- Vector F5: a halted core takes no step. -/
theorem test_halted_no_step : step { State.reset with halted := true } = .fault .haltedCore := rfl
/-- Vector F6: a faulted core takes no step. -/
theorem test_faulted_no_step :
    step { State.reset with fault := .illegal } = .fault (.faultedCore .illegal) := rfl
/-- The word placed for the next fetch is the one that runs, here the ADD of vector A7 from reset. -/
theorem test_fetch_word : regs (step (State.reset.withFetchWord 16 100)) = some (100, true, 1) := by decide
/-- Program P7: after reset with nothing placed, the first step halts at 0. -/
theorem test_reset_halts : stops (step State.reset) = some (.none, true, 0) := by decide

/-! ### The host's operations (95_test_vectors.md section 2.7) -/

/-- Vector H-L3. -/
theorem test_load_out_of_range : loadProgram [1000] State.reset = (State.reset, .loadError) := by decide
/-- Vector H-L4. -/
theorem test_load_illegal_word_accepted : (loadProgram [400] State.reset).2 = .loaded ∧
    (loadProgram [400] State.reset).1.mem = [(0, 400)] := by decide
/-- Vector H-I2. -/
theorem test_set_input_rejected :
    setInput [5, -1] { State.reset with inq := [7] } =
      ({ State.reset with inq := [7] }, .inputError) := by decide
/-- Vector H-I4's first half: the load keeps the input queue. -/
theorem test_load_keeps_input :
    (loadProgram [901, 902, 0] (setInput [4] State.reset).1).1.inq = [4] := by decide

/-! ### Witnesses: states and operands that meet the hypotheses of the statements -/

/-- For DecodingAnEncodedInstructionGivesItBack. -/
theorem witness_decode_encode : (Instr.illegal9xx 3).wellFormed = true ∧ (Instr.add 99).wellFormed = true := by
  decide
/-- For EncodingADecodedWordGivesItBack. -/
theorem witness_encode_decode : decode 0 = .ok (.hlt 0) ∧ decode 999 = .ok (.illegal9xx 99) := ⟨rfl, rfl⟩
/-- For DecoderFollowsOpcodeMap, both ends of every clause. -/
theorem witness_opcode_map :
    ((99 : Word).val ≤ 99 ∧ 100 ≤ (100 : Word).val ∧ (199 : Word).val ≤ 199 ∧ 200 ≤ (200 : Word).val ∧
      (299 : Word).val ≤ 299 ∧ 300 ≤ (300 : Word).val ∧ (399 : Word).val ≤ 399 ∧ 400 ≤ (400 : Word).val ∧
      (499 : Word).val ≤ 499) ∧
    (500 ≤ (500 : Word).val ∧ (599 : Word).val ≤ 599 ∧ 600 ≤ (600 : Word).val ∧ (699 : Word).val ≤ 699 ∧
      700 ≤ (700 : Word).val ∧ (799 : Word).val ≤ 799 ∧ 800 ≤ (800 : Word).val ∧ (899 : Word).val ≤ 899) ∧
    (900 : Word).val = 900 ∧ (901 : Word).val = 901 ∧ (902 : Word).val = 902 ∧ 903 ≤ (903 : Word).val := by
  decide
/-- For DecoderAcceptsExactlyTheWords. -/
theorem witness_word_ranges : (999 : Nat) ≤ 999 ∧ (999 : Nat) < 1000 := by decide
/-- For CanonicalWordsOfTheMnemonics, the results of ADD, SUB, LDA and STA, SubUndoesAdd, and the data
address outside the store: the last cell and the first address after it. -/
theorem witness_addresses : (99 : Nat) ≤ 99 ∧ (99 : Nat) < 100 := by decide
/-- For StepRunsTheDecodedInstruction. -/
theorem witness_step_runs :
    (ready [(99, 199)] 1 99).status = .ready ∧ (ready [(99, 199)] 1 99).pc ≤ 99 ∧
    decode (Memory.read (ready [(99, 199)] 1 99).mem 99).val = .ok (.add 99) := ⟨rfl, by decide, rfl⟩
/-- For FetchOutsideTheStoreRaisesMemoryError. -/
theorem witness_fetch_outside : (ready [] 0 100).status = .ready ∧ 99 < (ready [] 0 100).pc ∧
    (ready [] 0 100).Inv := by decide
/-- For StepIsTakenExactlyWhenReady, StepIsTheFetchDecodeExecuteCycle and EngineIterationsFollowTheRunLoop. -/
theorem witness_loaded : State.reset.loaded = true ∧ State.reset.status = .ready := by decide
/-- For StoppedCoreTakesNoStep, each clause. -/
theorem witness_each_status :
    State.constructed.loaded = false ∧
    (let s := { State.reset with fault := FaultCause.inputEmpty }
     s.loaded = true ∧ s.fault ≠ .none) ∧
    (let s := { State.reset with halted := true }
     s.loaded = true ∧ s.fault = .none ∧ s.halted = true) ∧
    (State.reset.loaded = true ∧ State.reset.fault = .none ∧ State.reset.halted = false) :=
  ⟨rfl, by decide, by decide, by decide⟩
/-- For InpTakesTheFrontOrFaults. -/
theorem witness_inp_clauses :
    State.reset.inq = [] ∧ ({ State.reset with inq := [5, 3] } : State).inq = 5 :: [3] := by decide
/-- For IllegalWordsRaiseIllegalInstruction, the ends of each range. -/
theorem witness_illegal_words :
    illegalWord 400 ∧ illegalWord 499 ∧ illegalWord 900 ∧ illegalWord 903 ∧ illegalWord 999 := by decide
/-- For the neighbours of the illegal ranges are legal. -/
theorem witness_legal_words : ¬illegalWord 399 ∧ ¬illegalWord 500 ∧ ¬illegalWord 901 ∧ ¬illegalWord 902 := by
  decide
/-- For DataAddressOutsideTheStoreRaisesMemoryError. -/
theorem witness_data_outside : Instr.sta 100 ∈ [Instr.add 100, .sub 100, .lda 100, .sta 100] := by decide
/-- For AddSubLdaFrame. -/
theorem witness_read_frame :
    Instr.lda 99 ∈ [Instr.add 99, .sub 99, .lda 99] ∧ ∃ t, exec (.lda 99) State.reset = .next t :=
  ⟨by decide, _, rfl⟩
/-- For StaFrame, inside and outside the store. -/
theorem witness_sta_frame :
    (∃ t, exec (.sta 99) State.reset = .next t) ∧ ∃ t, exec (.sta 100) State.reset = .next t :=
  ⟨⟨_, rfl⟩, _, rfl⟩
/-- For BranchHaltIllegalFrame. -/
theorem witness_branch_frame :
    Instr.brp 99 ∈ [Instr.bra 99, .brz 99, .brp 99] ∧ Instr.illegal9xx 99 ∈ [Instr.illegal4xx 99, .illegal900, .illegal9xx 99] ∧
    Instr.hlt 99 ∈ [Instr.bra 99, .brz 99, .brp 99, .hlt 99, .illegal4xx 99, .illegal900, .illegal9xx 99] ∧
    (∃ t, exec (.brp 99) State.reset = .next t) ∧ (∃ t, exec (.hlt 99) State.reset = .next t) ∧
    ∃ t, exec (.illegal9xx 99) State.reset = .next t :=
  ⟨by decide, by decide, by decide, ⟨_, rfl⟩, ⟨_, rfl⟩, _, rfl⟩
/-- For InpOutFrame, INP with and without input. -/
theorem witness_inp_out_frame :
    (∃ t, exec .inp { State.reset with inq := [0] } = .next t) ∧
    ({ State.reset with inq := [0] } : State).inq ≠ [] ∧
    (∃ t, exec .inp State.reset = .next t) ∧ State.reset.inq = [] ∧
    ∃ t, exec .out State.reset = .next t :=
  ⟨⟨_, rfl⟩, by decide, ⟨_, rfl⟩, rfl, _, rfl⟩
/-- For EachElementChangesOnlyByItsWriters: each element is changed by one of its writers somewhere. -/
theorem witness_writers :
    ((after (exec (.add 0) (ready [(0, 100)] 950 0))).map fun t => (t.acc, t.pflag)) = some (50, false) ∧
    ((after (exec (.hlt 0) State.reset)).map fun t => t.halted) = some true ∧
    ((after (exec (.sta 99) (ready [] 5 0))).map fun t => t.mem) = some [(99, 5)] ∧
    ((after (exec .inp { State.reset with inq := [5] })).map fun t => t.inq) = some [] ∧
    ((after (exec .out State.reset)).map fun t => t.outq) = some [0] ∧
    ((after (exec (.lda 99) State.reset)).map fun t => t.pc) = some 1 ∧
    ((after (exec (.bra 99) State.reset)).map fun t => t.pc) = some 99 := by decide
/-- For EachElementChangesOnlyByItsWriters, the fault cause: each of its three writers. -/
theorem witness_fault_writers :
    ((after (exec (.sta 100) State.reset)).map fun t => t.fault) = some .memory ∧
    ((after (exec .inp State.reset)).map fun t => t.fault) = some .inputEmpty ∧
    ((after (exec (.illegal9xx 3) State.reset)).map fun t => t.fault) = some .illegal := by decide
/-- For PositiveFlagIsReadOnlyByBrp: SUB of the last cell, and LDA of it, which keeps the flag. -/
theorem witness_not_brp :
    (∀ a, Instr.sub 99 ≠ .brp a) ∧ (∃ a, a ≤ 99 ∧ (Instr.sub 99 = .add a ∨ Instr.sub 99 = .sub a)) ∧
    (∃ t, exec (.sub 99) State.reset = .next t) ∧
    (∀ a, Instr.lda 99 ≠ .brp a) ∧ (¬∃ a, a ≤ 99 ∧ (Instr.lda 99 = .add a ∨ Instr.lda 99 = .sub a)) ∧
    ∃ t, exec (.lda 99) State.reset = .next t :=
  ⟨by simp, ⟨99, by decide, .inr rfl⟩, ⟨_, rfl⟩, by simp, by simp, _, rfl⟩
/-- For PositiveFlagIsReadOnlyByBrp, where its two clauses meet: SUB just outside the store carries the
flag through. -/
theorem witness_sub_outside_store : ¬∃ a, a ≤ 99 ∧ (Instr.sub 100 = .add a ∨ Instr.sub 100 = .sub a) := by
  simp
/-- For NextPcOfEveryInstruction. -/
theorem witness_next_pc : (Instr.brz 99).wellFormed = true ∧ ∃ t, exec (.brz 99) State.reset = .next t :=
  ⟨rfl, _, rfl⟩
/-- For FaultingStepChangesOnlyTheFaultCause and FaultCausesOfAStep, each cause. -/
theorem witness_faulting_steps :
    (∃ t, step (ready [] 0 100) = .next t ∧ t.fault ≠ .none) ∧
    (∃ t, step (ready [(0, 901)] 0 0) = .next t ∧ t.fault ≠ .none) ∧
    ∃ t, step (ready [(0, 400)] 0 0) = .next t ∧ t.fault ≠ .none :=
  ⟨⟨_, rfl, by decide⟩, ⟨_, rfl, by decide⟩, _, rfl, by decide⟩
/-- For StoreIsSeenByTheNextFetch: vector T4's store of an illegal word, and the fetch of it. -/
theorem witness_store_then_fetch :
    ∃ t u : State, exec (.sta 99) (ready [] 400 0) = .next t ∧ u.mem = t.mem ∧ u.status = .ready ∧ u.pc = 99 :=
  ⟨_, ready [(99, 400)] 400 99, rfl, by decide, by decide, rfl⟩
/-- For MemoriesThatReadTheSameAreEqual. -/
theorem witness_canonical_memory : Memory.wf [(0, 1), (99, 999)] := by decide
/-- For what the canonical form refuses: a listed 0, an address above 99, a wrong order, a repeat. -/
theorem witness_not_canonical :
    ¬Memory.wf [(0, 0)] ∧ ¬Memory.wf [(100, 1)] ∧ ¬Memory.wf [(1, 1), (0, 1)] ∧ ¬Memory.wf [(1, 1), (1, 1)] := by
  decide
/-- For StepKeepsTheInvariant and OutputQueueIsNeverRead: the invariant and a step, at the fetch check,
at an illegal word, and at a halt. -/
theorem witness_invariant_steps :
    ((ready [] 0 100).Inv ∧ ∃ t, step (ready [] 0 100) = .next t) ∧
    ((ready [(99, 999)] 0 99).Inv ∧ ∃ t, step (ready [(99, 999)] 0 99) = .next t) ∧
    (State.reset.Inv ∧ ∃ t, step State.reset = .next t) :=
  ⟨⟨by decide, _, rfl⟩, ⟨by decide, _, rfl⟩, by decide, _, rfl⟩
/-- For OnlyTheFrontOfTheInputIsRead. -/
theorem witness_unread_input :
    ∃ t, step { ready [(0, 901)] 0 0 with inq := [5] } = .next t ∧ t.fault ≠ .inputEmpty :=
  ⟨_, rfl, by decide⟩
/-- For LoadRejectsBadImagesAtomically and SetInputReplacesTheQueueOrRejects. -/
theorem witness_bad_images :
    100 < (List.replicate 101 (0 : Int)).length ∧ (∃ v ∈ ([1000] : List Int), v < 0 ∨ 999 < v) ∧
    (∃ v ∈ ([-1] : List Int), v < 0 ∨ 999 < v) ∧ ¬(∃ v ∈ ([0, 999] : List Int), v < 0 ∨ 999 < v) := by
  decide
/-- For LoadResetsAllButTheInputQueue, LoadEstablishesTheInvariant and SetInputReplacesTheQueueOrRejects. -/
theorem witness_good_images :
    (List.replicate 100 (999 : Int)).length ≤ 100 ∧ (∀ v ∈ ([0, 999] : List Int), 0 ≤ v ∧ v ≤ 999) ∧
    (∃ t, loadProgram [0, 999] State.reset = (t, .loaded)) := ⟨by decide, by decide, _, rfl⟩
/-- For HostHasNoMoveDuringARun. -/
theorem witness_host_during_run : (⟨State.reset, true⟩ : Engine).running = true := rfl
/-- For RunBeginsOnlyOnAReadyCore, each clause. -/
theorem witness_run_statuses :
    State.reset.status = .ready ∧ ({ State.reset with halted := true } : State).status = .halted ∧
    ({ State.reset with fault := .memory } : State).status = .faulted .memory ∧
    State.constructed.status = .unloaded := ⟨rfl, rfl, rfl, rfl⟩
/-- For OnlyALoadLeavesAStoppedState: a stopped core, and a move on it that is no successful load. -/
theorem witness_stopped_moves :
    hostAct (.loadProgram [1000]) ⟨{ State.reset with halted := true }, false⟩ =
      .next (⟨{ State.reset with halted := true }, false⟩, .loadError) ∧
    hostAct .run ⟨{ State.reset with fault := .illegal }, false⟩ =
      .next (⟨{ State.reset with fault := .illegal }, false⟩, .runError .illegal) := ⟨rfl, rfl⟩
/-- For RunEndsByHaltOrByFault and AnEndedRunStaysEnded: still going, halted, faulted. -/
theorem witness_run_ends :
    (runFor 0 State.reset).2 = none ∧ (runFor 1 State.reset).2 = some (.outputs []) ∧
    (runFor 1 (ready [(0, 901)] 0 0)).2 = some (.runError .inputEmpty) := by decide
/-- For BranchToItselfNeverEnds. -/
theorem witness_branch_to_itself :
    (ready [(99, 699)] 0 99).status = .ready ∧ (ready [(99, 699)] 0 99).pc ≤ 99 ∧
    (Memory.read (ready [(99, 699)] 0 99).mem 99).val = 600 + 99 := by decide
/-- For ReachableEnginesMeetTheInvariant: a loaded and then running engine. -/
theorem witness_reachable : ∃ s, Reachable ⟨s, true⟩ :=
  ⟨_, .hostMove .run (.hostMove (.loadProgram []) .constructed rfl) rfl⟩
/-- For EngineMovesKeepTheInvariant: an engine at rest with a move that is answered, and a running one
whose iteration is the fetch check's fault. -/
theorem witness_engine_moves :
    (⟨State.reset, false⟩ : Engine).Inv ∧
    hostAct .run ⟨State.reset, false⟩ = .next (⟨State.reset, true⟩, .runStarted) ∧
    (⟨ready [] 0 100, true⟩ : Engine).Inv ∧
    (tick ⟨ready [] 0 100, true⟩).2 = some (.runError .memory) := ⟨by decide, rfl, by decide, by decide⟩

end Sys2Proof.Tests
end

section
/-! SUPPORT. Everything an instruction answers, as one relation with a case per outcome (40_fetch_decode.md
R95), tied to `exec` by `exec_eq_next_iff`; later proofs go through its cases and do not unfold the
instructions' meanings. -/

namespace Sys2Proof.Machine

/-- Instruction `i` takes the state `s` to `t`: the ten instructions where they succeed, and the three
run-time faults an instruction can raise (R41, R42, R93, R131). -/
inductive ExecTo (s : State) : Instr → State → Prop where
  | hlt (a : Nat) : ExecTo s (.hlt a) (s.setHalted true)
  | add {a : Nat} (ha : a ≤ 99) : ExecTo s (.add a)
      ((s.setAcc (aluAdd s.acc (Memory.read s.mem a)).1).setPflag
        (aluAdd s.acc (Memory.read s.mem a)).2).advance
  | sub {a : Nat} (ha : a ≤ 99) : ExecTo s (.sub a)
      ((s.setAcc (aluSub s.acc (Memory.read s.mem a)).1).setPflag
        (aluSub s.acc (Memory.read s.mem a)).2).advance
  | lda {a : Nat} (ha : a ≤ 99) : ExecTo s (.lda a) (s.setAcc (Memory.read s.mem a)).advance
  | sta {a : Nat} (ha : a ≤ 99) : ExecTo s (.sta a) (s.setMem (Memory.write s.mem a s.acc)).advance
  | bra (a : Nat) : ExecTo s (.bra a) (s.setPc a)
  | brz (a : Nat) : ExecTo s (.brz a) (s.setPc (if s.acc = 0 then a else s.pc + 1))
  | brp (a : Nat) : ExecTo s (.brp a) (s.setPc (if s.pflag then a else s.pc + 1))
  | inp {v : Word} {rest : List Word} (hq : s.inq = v :: rest) :
      ExecTo s .inp ((s.setAcc v).setInq rest).advance
  | out : ExecTo s .out (s.setOutq (s.outq ++ [s.acc])).advance
  | addressFault {a : Nat} {i : Instr} (ha : 99 < a) (hi : i ∈ [Instr.add a, .sub a, .lda a, .sta a]) :
      ExecTo s i (s.setFault .memory)
  | inputFault (hq : s.inq = []) : ExecTo s .inp (s.setFault .inputEmpty)
  | illegalFault {a : Nat} {i : Instr} (hi : i ∈ [Instr.illegal4xx a, .illegal900, .illegal9xx a]) :
      ExecTo s i (s.setFault .illegal)

theorem ExecTo.exec_eq {s t : State} {i : Instr} (h : ExecTo s i t) : exec i s = .next t := by
  cases h with
  | hlt | bra | out => rfl
  | add ha => simp [exec, execAdd, aluStep, withCell_inside ha]
  | sub ha => simp [exec, execSub, aluStep, withCell_inside ha]
  | lda ha => simp [exec, execLda, withCell_inside ha]
  | sta ha => simp [exec, execSta, intoCell_inside ha]
  | brz a => simp [exec, execBrz, branchIf_eq]
  | brp a => simp [exec, execBrp, branchIf_eq]
  | inp hq | inputFault hq => simp [exec, execInp, hq]
  | addressFault ha hi =>
    simp only [List.mem_cons, List.not_mem_nil, or_false] at hi
    rcases hi with rfl | rfl | rfl | rfl
    · simp [exec, execAdd, aluStep, withCell_outside ha]
    · simp [exec, execSub, aluStep, withCell_outside ha]
    · simp [exec, execLda, withCell_outside ha]
    · simp [exec, execSta, intoCell_outside ha]
  | illegalFault hi =>
    simp only [List.mem_cons, List.not_mem_nil, or_false] at hi
    rcases hi with rfl | rfl | rfl <;> rfl

/-- An instruction with a data address succeeds in the store and faults outside it (R41, R42). -/
theorem exists_execTo_of_address {s t : State} {i : Instr} {a : Nat}
    (hi : i ∈ [Instr.add a, .sub a, .lda a, .sta a]) (hin : a ≤ 99 → ExecTo s i t) :
    ∃ t, ExecTo s i t :=
  (Nat.lt_or_ge 99 a).elim (fun ha => ⟨_, .addressFault ha hi⟩) fun ha => ⟨t, hin ha⟩

theorem exists_execTo (i : Instr) (s : State) : ∃ t, ExecTo s i t := by
  cases i with
  | hlt a => exact ⟨_, .hlt a⟩
  | add a => exact exists_execTo_of_address (by simp) .add
  | sub a => exact exists_execTo_of_address (by simp) .sub
  | sta a => exact exists_execTo_of_address (by simp) .sta
  | lda a => exact exists_execTo_of_address (by simp) .lda
  | bra a => exact ⟨_, .bra a⟩
  | brz a => exact ⟨_, .brz a⟩
  | brp a => exact ⟨_, .brp a⟩
  | inp =>
    cases hq : s.inq with
    | nil => exact ⟨_, .inputFault hq⟩
    | cons v rest => exact ⟨_, .inp hq⟩
  | out => exact ⟨_, .out⟩
  | illegal4xx a => exact ⟨_, .illegalFault (a := a) (by simp)⟩
  | illegal900 => exact ⟨_, .illegalFault (a := 0) (by simp)⟩
  | illegal9xx a => exact ⟨_, .illegalFault (a := a) (by simp)⟩

theorem exec_eq_next_iff {i : Instr} {s t : State} : exec i s = .next t ↔ ExecTo s i t := by
  refine ⟨fun h => ?_, ExecTo.exec_eq⟩
  obtain ⟨u, hu⟩ := exists_execTo i s
  obtain rfl : u = t := by simpa [hu.exec_eq] using h
  exact hu

/-! ### The step of a ready core, inside and outside the store -/

theorem step_of_pc_inside {s : State} (hready : s.status = .ready) (hp : s.pc ≤ 99) :
    step s = exec (decodeWord (Memory.read s.mem s.pc)) s := by
  rw [step, whenReady_of_ready hready, withFetched_inside hp]

theorem step_of_pc_outside {s : State} (hready : s.status = .ready) (hp : 99 < s.pc) :
    step s = .next (s.setFault .memory) := by
  rw [step, whenReady_of_ready hready, withFetched_outside hp]

end Sys2Proof.Machine
end

section
/-! PROOFS. Who writes and who reads each state element (10_state.md section 5). -/

namespace Sys2Proof.Machine

/-! ### The writers -/

/-- Settles O29, by the cases of `ExecTo`: each names what the instruction writes. -/
theorem eachElementChangesOnlyByItsWriters : Obligations.EachElementChangesOnlyByItsWriters := by
  intro i s t h
  cases exec_eq_next_iff.1 h with
  | hlt a | bra a | brz a | brp a => simp
  | add ha | sub ha | lda ha | sta ha => simp [ha]
  | inp hq => simp [hq]
  | out => simp
  | addressFault ha hi => simpa [-List.mem_cons] using fun _ => ⟨_, ha, hi⟩
  | inputFault hq => simp [hq]
  | illegalFault hi => simpa [-List.mem_cons] using fun _ => ⟨_, hi⟩

/-! ### The Positive Flag -/

/-- ADD and SUB of a cell of the store write the flag without reading it (R23, R100, R101). -/
theorem exec_alu_setPflag {i : Instr} {a : Nat} (ha : a ≤ 99) (hi : i = .add a ∨ i = .sub a) (s : State)
    (b : Bool) : exec i (s.setPflag b) = exec i s := by
  rcases hi with rfl | rfl
  · exact (ExecTo.add (s := s.setPflag b) ha).exec_eq.trans (ExecTo.add (s := s) ha).exec_eq.symm
  · exact (ExecTo.sub (s := s.setPflag b) ha).exec_eq.trans (ExecTo.sub (s := s) ha).exec_eq.symm

/-- An instruction that neither reads nor writes the flag carries it through. -/
theorem ExecTo.setPflag {i : Instr} {s t : State} (h : ExecTo s i t) (hbrp : ∀ a, i ≠ .brp a)
    (halu : ¬∃ a, a ≤ 99 ∧ (i = .add a ∨ i = .sub a)) (b : Bool) :
    ExecTo (s.setPflag b) i (t.setPflag b) := by
  cases h with
  | hlt a => exact .hlt a
  | add ha => exact absurd ⟨_, ha, .inl rfl⟩ halu
  | sub ha => exact absurd ⟨_, ha, .inr rfl⟩ halu
  | lda ha => exact .lda ha
  | sta ha => exact .sta ha
  | bra a => exact .bra a
  | brz a => exact .brz a
  | brp a => exact absurd rfl (hbrp a)
  | inp hq => exact .inp hq
  | out => exact .out
  | addressFault ha hi => exact .addressFault ha hi
  | inputFault hq => exact .inputFault hq
  | illegalFault hi => exact .illegalFault hi

/-- Settles O30: ADD and SUB overwrite the flag, and every other instruction but BRP carries it
through. -/
theorem positiveFlagIsReadOnlyByBrp : Obligations.PositiveFlagIsReadOnlyByBrp := by
  intro i s t b hbrp h
  refine ⟨fun ⟨a, ha, hi⟩ => ?_, fun halu => ?_⟩
  · exact (exec_alu_setPflag ha hi s b).trans h
  · exact ((exec_eq_next_iff.1 h).setPflag hbrp halu b).exec_eq

/-! ### The output queue -/

/-- OUT appends behind whatever the queue holds, and no other instruction touches it (R29, R132). -/
theorem ExecTo.prependOutput {i : Instr} {s t : State} (h : ExecTo s i t) (q : List Word) :
    ExecTo (s.setOutq (q ++ s.outq)) i (t.setOutq (q ++ t.outq)) := by
  cases h with
  | hlt a => exact .hlt a
  | add ha => exact .add ha
  | sub ha => exact .sub ha
  | lda ha => exact .lda ha
  | sta ha => exact .sta ha
  | bra a => exact .bra a
  | brz a => exact .brz a
  | brp a => exact .brp a
  | inp hq => exact .inp hq
  | out =>
    rw [State.advance_outq, State.setOutq_outq, ← List.append_assoc]
    exact .out
  | addressFault ha hi => exact .addressFault ha hi
  | inputFault hq => exact .inputFault hq
  | illegalFault hi => exact .illegalFault hi

/-- Settles O39: the gate and the fetch do not look at the output queue, and the instruction commutes
with values put in front of it. -/
theorem outputQueueIsNeverRead : Obligations.OutputQueueIsNeverRead := by
  intro s t q h
  obtain ⟨hready, ⟨hp, rfl⟩ | ⟨hp, hexec⟩⟩ := step_cases h
  · exact step_of_pc_outside hready hp
  · exact (step_of_pc_inside (s := s.setOutq (q ++ s.outq)) hready hp).trans
      ((exec_eq_next_iff.1 hexec).prependOutput q).exec_eq

/-! ### The input queue -/

/-- INP takes the front and leaves what is behind it, and no other instruction touches the queue (R28,
R131). -/
theorem ExecTo.appendInput {i : Instr} {s t : State} (h : ExecTo s i t) (hfault : t.fault ≠ .inputEmpty)
    (q : List Word) : ExecTo (s.setInq (s.inq ++ q)) i (t.setInq (t.inq ++ q)) := by
  cases h with
  | hlt a => exact .hlt a
  | add ha => exact .add ha
  | sub ha => exact .sub ha
  | lda ha => exact .lda ha
  | sta ha => exact .sta ha
  | bra a => exact .bra a
  | brz a => exact .brz a
  | brp a => exact .brp a
  | @inp v rest hq =>
    have hfront : (s.setInq (s.inq ++ q)).inq = v :: (rest ++ q) := by simp [hq]
    exact .inp hfront
  | out => exact .out
  | addressFault ha hi => exact .addressFault ha hi
  | inputFault => exact absurd rfl hfault
  | illegalFault hi => exact .illegalFault hi

/-- Settles O40: the gate and the fetch do not look at the input queue, and an instruction that finds
its input commutes with values put behind it. -/
theorem onlyTheFrontOfTheInputIsRead : Obligations.OnlyTheFrontOfTheInputIsRead := by
  intro s t q h hfault
  obtain ⟨hready, ⟨hp, rfl⟩ | ⟨hp, hexec⟩⟩ := step_cases h
  · exact step_of_pc_outside hready hp
  · exact (step_of_pc_inside (s := s.setInq (s.inq ++ q)) hready hp).trans
      ((exec_eq_next_iff.1 hexec).appendInput hfault q).exec_eq

end Sys2Proof.Machine
end

section
/-! PROOFS. What `load_program` and `set_input` leave in every state element (70_reset_and_hazards.md
sections 1 and 2). -/

namespace Sys2Proof.Machine

/-- Values in [0, 999] are the values of a list of words (R170, R173). -/
theorem exists_wordsOf?_of_range {vs : List Int} (h : ∀ v ∈ vs, 0 ≤ v ∧ v ≤ 999) :
    ∃ ws, wordsOf? vs = some ws ∧ ws.map (fun w => (w.val : Int)) = vs := by
  obtain ⟨ws, hws⟩ := Option.isSome_iff_exists.1 ((wordsOf?_isSome_iff vs).2 h)
  exact ⟨ws, hws, (wordsOf?_eq_some hws).symm⟩

/-- A value outside [0, 999] is no word, so its list is no list of words (R170, R173). -/
theorem wordsOf?_eq_none_of_bad {vs : List Int} (h : ∃ v ∈ vs, v < 0 ∨ 999 < v) : wordsOf? vs = none := by
  obtain ⟨v, hv, hbad⟩ := h
  rw [← Option.not_isSome_iff_eq_none, wordsOf?_isSome_iff]
  intro hgood
  have := hgood v hv
  omega

theorem loadProgram_of_words {image : List Int} {ws : List Word} (hlen : image.length ≤ 100)
    (hws : wordsOf? image = some ws) (s : State) :
    loadProgram image s = (loadedState ws s, .loaded) := by
  simp [loadProgram, hws, hlen]

theorem setInput_of_words {values : List Int} {ws : List Word} (hws : wordsOf? values = some ws)
    (s : State) : setInput values s = (s.setInq ws, .inputSet) := by
  simp [setInput, hws]

theorem setInput_of_no_words {values : List Int} (hws : wordsOf? values = none) (s : State) :
    setInput values s = (s, .inputError) := by
  simp [setInput, hws]

/-- The loaded memory as numbers: the image in the first cells, 0 in every other (R171). -/
theorem loadedState_read (ws : List Word) (s : State) (a : Nat) :
    ((Memory.read (loadedState ws s).mem a).val : Int) =
      ((ws.map fun w => (w.val : Int))[a]?).getD 0 := by
  have hmem : Memory.read (loadedState ws s).mem a = (ws[a]?).getD 0 := by
    simp [loadedState, placeImage_read]
  rw [hmem, List.getElem?_map]
  cases ws[a]? <;> rfl

/-- Settles O44: a good image is a list of words, and the load leaves `loadedState` of them. -/
theorem loadResetsAllButTheInputQueue : Obligations.LoadResetsAllButTheInputQueue := by
  intro image s hlen hrange
  obtain ⟨ws, hws, rfl⟩ := exists_wordsOf?_of_range hrange
  exact ⟨_, loadProgram_of_words hlen hws s, rfl, rfl, rfl, rfl, rfl, rfl, rfl, rfl, loadedState_read ws s⟩

/-- Settles O46: the values are a list of words exactly when all lie in [0, 999]. -/
theorem setInputReplacesTheQueueOrRejects : Obligations.SetInputReplacesTheQueueOrRejects := by
  intro values s
  refine ⟨fun hbad => setInput_of_no_words (wordsOf?_eq_none_of_bad hbad) s, fun hrange => ?_⟩
  obtain ⟨ws, hws, hvalues⟩ := exists_wordsOf?_of_range hrange
  exact ⟨ws, hvalues, setInput_of_words hws s⟩

end Sys2Proof.Machine
end

section
/-! PROOFS. The Memory Store under the data instructions: the bounds check, what STA leaves unchanged,
and that a store reaches the next fetch (20_memory.md R41, R42, R50). -/

namespace Sys2Proof.Machine

/-! ### The bounds check -/

/-- Settles O24: an address outside the store is the `addressFault` case of all four instructions. -/
theorem dataAddressOutsideTheStoreRaisesMemoryError :
    Obligations.DataAddressOutsideTheStoreRaisesMemoryError := by
  intro a s ha i hi
  exact (ExecTo.addressFault ha hi).exec_eq

/-! ### STA -/

/-- What STA can do: store into a cell and advance, or take the bounds check's fault (R42, R111). -/
theorem exec_sta_cases {a : Nat} {s t : State} (h : exec (.sta a) s = .next t) :
    (a ≤ 99 ∧ t = (s.setMem (Memory.write s.mem a s.acc)).advance) ∨
      (99 < a ∧ t = s.setFault .memory) := by
  rcases Nat.lt_or_ge 99 a with ha | ha
  · have hfault := (ExecTo.addressFault (s := s) (i := .sta a) ha (by simp)).exec_eq
    exact .inr ⟨ha, Host.Outcome.next.inj (h.symm.trans hfault)⟩
  · have hstore := (ExecTo.sta (s := s) ha).exec_eq
    exact .inl ⟨ha, Host.Outcome.next.inj (h.symm.trans hstore)⟩

/-- Settles O26: a store writes one cell and `pc`, and the bounds check's fault writes no cell. -/
theorem staFrame : Obligations.StaFrame := by
  intro a s t h
  rcases exec_sta_cases h with ⟨ha, rfl⟩ | ⟨ha, rfl⟩
  · have hcells (b : Nat) (hb : b ≠ a) :
        Memory.read (Memory.write s.mem a s.acc) b = Memory.read s.mem b := by simp [hb]
    exact ⟨rfl, rfl, rfl, rfl, rfl, rfl, fun _ => rfl, hcells, fun hout => absurd ha hout.not_ge⟩
  · exact ⟨rfl, rfl, rfl, rfl, rfl, rfl, fun hin => absurd hin ha.not_ge, fun _ _ => rfl, fun _ _ => rfl⟩

/-- The stored cell reads as the accumulator (R111, R50). -/
theorem read_of_exec_sta {a : Nat} {s t : State} (ha : a ≤ 99) (h : exec (.sta a) s = .next t) :
    Memory.read t.mem a = s.acc := by
  obtain ⟨-, rfl⟩ | ⟨hout, -⟩ := exec_sta_cases h
  · simp
  · exact absurd ha hout.not_ge

/-! ### The fetch after a store -/

/-- Settles O35: the step of a ready core runs the word in its cell, and after STA that word is the
accumulator. -/
theorem storeIsSeenByTheNextFetch : Obligations.StoreIsSeenByTheNextFetch := by
  rintro a s t u ha h hmem hready rfl
  rw [step_of_pc_inside hready ha, hmem, read_of_exec_sta ha h]

end Sys2Proof.Machine
end

section
/-! SUPPORT. The decoder and the encoder on a word given by its digits, `opcode * 100 + operand`
(30_encoding.md R60, R61), and the decoder on any number. -/

namespace Sys2Proof

/-! ### The digits of a word -/

theorem val_eq_digits (w : Word) : w.val = opcodeOf w * 100 + operandOf w :=
  (Nat.div_add_mod' w.val 100).symm

/-- The digits of a word are unique, so any way to write it with a two-digit operand says how it
decodes. -/
theorem decodeWord_of_digits {w : Word} {op a : Nat} (ha : a ≤ 99) (hw : w.val = op * 100 + a) :
    decodeWord w = decodeDigits op a := by
  have hop : opcodeOf w = op := by unfold opcodeOf; omega
  have hoperand : operandOf w = a := by unfold operandOf; omega
  rw [decodeWord, hop, hoperand]

/-- A word of the hundred that begins at `op * 100` decodes as opcode `op`, its offset the operand. -/
theorem decodeWord_of_hundred {w : Word} {op : Nat} (hlo : op * 100 ≤ w.val)
    (hhi : w.val ≤ op * 100 + 99) : decodeWord w = decodeDigits op (w.val - op * 100) :=
  decodeWord_of_digits (by omega) (by omega)

/-- Under opcode 9 every operand but 00, 01 and 02 is illegal (R65). -/
theorem decodeNine_of_three_le {a : Nat} (ha : 3 ≤ a) : decodeNine a = .illegal9xx a := by
  unfold decodeNine
  split
  case h_4 => rfl
  all_goals omega

/-! ### The encoder after the decoder -/

theorem encode_decodeNine (a : Nat) : encode (decodeNine a) = 9 * 100 + a := by
  unfold decodeNine
  split <;> rfl

theorem encode_decodeDigits {op : Nat} (hop : op ≤ 9) (a : Nat) :
    encode (decodeDigits op a) = op * 100 + a := by
  rcases hop.lt_or_eq with hlt | rfl
  · interval_cases op <;> rfl
  · exact encode_decodeNine a

theorem encode_decodeWord (w : Word) : encode (decodeWord w) = w.val :=
  (encode_decodeDigits (opcodeOf_le w) _).trans (val_eq_digits w).symm

/-! ### The decoder on a number -/

theorem decode_of_lt {w : Nat} (hw : w < 1000) : decode w = .ok (decodeWord ⟨w, hw⟩) :=
  decode_word ⟨w, hw⟩

theorem decode_of_ge {w : Nat} (hw : 1000 ≤ w) : decode w = .error (.aboveWordRange w) :=
  dif_neg hw.not_gt

theorem decode_eq_ok_iff {w : Nat} {i : Instr} :
    decode w = .ok i ↔ ∃ hw : w < 1000, decodeWord ⟨w, hw⟩ = i := by
  rcases Nat.lt_or_ge w 1000 with hw | hw
  · simp [decode_of_lt hw, hw]
  · simp [decode_of_ge hw, hw.not_gt]

theorem decode_digits {op a : Nat} (hop : op ≤ 9) (ha : a ≤ 99) :
    decode (op * 100 + a) = .ok (decodeDigits op a) :=
  decode_eq_ok_iff.2 ⟨by omega, decodeWord_of_digits ha rfl⟩

end Sys2Proof
end

section
/-! PROOFS. The encoding (30_encoding.md), and HLT, whose operand digits the encoding keeps and the
machine ignores (R64). -/

namespace Sys2Proof

/-! ### The round trips -/

/-- Settles O3: a well-formed instruction's word is written with its opcode and a two-digit operand,
and decodes by those digits; under opcode 9 the operand says which of the four rows it is. -/
theorem decodingAnEncodedInstructionGivesItBack :
    Obligations.DecodingAnEncodedInstructionGivesItBack := by
  intro i h
  cases i with
  | hlt a | add a | sub a | sta a | illegal4xx a | lda a | bra a | brz a | brp a =>
    exact decode_digits (by decide) ((twoDigits_iff a).1 h)
  | illegal900 | inp | out => rfl
  | illegal9xx a =>
    obtain ⟨hlo, hhi⟩ : 3 ≤ a ∧ a ≤ 99 := by simpa [Instr.wellFormed] using h
    calc decode (9 * 100 + a)
      _ = .ok (decodeNine a) := decode_digits le_rfl hhi
      _ = .ok (.illegal9xx a) := by rw [decodeNine_of_three_le hlo]

/-- Settles O4: a number that decodes is a word, and the encoder puts the word's two digits together
again. -/
theorem encodingADecodedWordGivesItBack : Obligations.EncodingADecodedWordGivesItBack := by
  intro w i h
  obtain ⟨hw, rfl⟩ := decode_eq_ok_iff.1 h
  exact ⟨decodeWord_wellFormed ⟨w, hw⟩, encode_decodeWord ⟨w, hw⟩⟩

/-! ### The opcode map -/

/-- Settles O1. -/
theorem wordSplitsIntoOpcodeAndOperand : Obligations.WordSplitsIntoOpcodeAndOperand :=
  fun w => ⟨rfl, rfl, opcodeOf_le w, operandOf_le w, val_eq_digits w⟩

/-- Settles O2: each row but the last four is one hundred of words, and these four divide the last
hundred by its operand. -/
theorem decoderFollowsOpcodeMap : Obligations.DecoderFollowsOpcodeMap := by
  intro w
  have hnine (h : 900 ≤ w.val) : decodeWord w = decodeNine (w.val - 900) :=
    decodeWord_of_hundred (op := 9) h (by omega)
  refine ⟨decodeWord_of_hundred (op := 0) (Nat.zero_le _), decodeWord_of_hundred (op := 1),
    decodeWord_of_hundred (op := 2), decodeWord_of_hundred (op := 3), decodeWord_of_hundred (op := 4),
    decodeWord_of_hundred (op := 5), decodeWord_of_hundred (op := 6), decodeWord_of_hundred (op := 7),
    decodeWord_of_hundred (op := 8), fun h => ?_, fun h => ?_, fun h => ?_, fun h => ?_⟩
  · simp [hnine, h, decodeNine]
  · simp [hnine, h, decodeNine]
  · simp [hnine, h, decodeNine]
  · rw [hnine (by omega), decodeNine_of_three_le (by omega)]

/-- Settles O5. -/
theorem decoderAcceptsExactlyTheWords : Obligations.DecoderAcceptsExactlyTheWords :=
  fun _ => ⟨fun hw => ⟨_, decode_of_lt (Nat.lt_succ_of_le hw)⟩, decode_of_ge⟩

/-- Settles O6: every canonical word is its mnemonic's equation of `encode`, whatever the operand. -/
theorem canonicalWordsOfTheMnemonics : Obligations.CanonicalWordsOfTheMnemonics :=
  fun _ _ => ⟨rfl, rfl, rfl, rfl, rfl, rfl, rfl, rfl, rfl, rfl⟩

/-! ### HLT -/

/-- Settles O20: HLT's case of `ExecTo`, the same for every operand. -/
theorem hltSetsHaltedOnly : Obligations.HltSetsHaltedOnly :=
  fun a _ => (Machine.ExecTo.hlt a).exec_eq

end Sys2Proof
end

section
/-! SUPPORT. The words INP and the illegal rows decode from (30_encoding.md R65, R66), what every
instruction does to the fault cause and the loaded bit, and when a step is taken. -/

namespace Sys2Proof.Machine

/-! ### The word of INP and the illegal words -/

theorem decodeWord_eq_inp_iff (w : Word) : decodeWord w = .inp ↔ w.val = 901 := by
  refine ⟨fun h => ?_, fun h => ?_⟩
  · rw [← encode_decodeWord, h]
    rfl
  · obtain ⟨-, -, -, -, -, -, -, -, -, -, hinp, -⟩ := decoderFollowsOpcodeMap w
    exact hinp h

theorem illegalWord_iff (w : Word) :
    illegalWord w ↔ ∃ a, decodeWord w ∈ [Instr.illegal4xx a, .illegal900, .illegal9xx a] := by
  refine ⟨fun h => ?_, fun ⟨a, h⟩ => ?_⟩
  · obtain ⟨-, -, -, -, h4xx, -, -, -, -, h900, -, -, h9xx⟩ := decoderFollowsOpcodeMap w
    rcases h with ⟨hlo, hhi⟩ | hw | hlo
    · exact ⟨_, by rw [h4xx hlo hhi]; exact .head _⟩
    · exact ⟨0, by simp [h900 hw]⟩
    · exact ⟨w.val - 900, by simp [h9xx hlo]⟩
  · have hval := encode_decodeWord w
    have hwf := decodeWord_wellFormed w
    simp only [List.mem_cons, List.not_mem_nil, or_false] at h
    rcases h with h | h | h <;>
      simp only [h, encode, Instr.wellFormed, Bool.and_eq_true, decide_eq_true_eq, twoDigits_iff] at hval hwf <;>
      omega

/-! ### A well-formed instruction has no address outside the store -/

/-- The bounds check of R41 and R42 cannot fail for an instruction that has a word (R43). -/
theorem not_wellFormed_of_address {i : Instr} {a : Nat} (ha : 99 < a)
    (hi : i ∈ [Instr.add a, .sub a, .lda a, .sta a]) : i.wellFormed ≠ true := by
  simp only [List.mem_cons, List.not_mem_nil, or_false] at hi
  rcases hi with rfl | rfl | rfl | rfl <;> simpa [Instr.wellFormed] using ha

/-! ### The fault cause and the loaded bit -/

/-- A fault is the only change of the instruction that raises it (R142). -/
theorem ExecTo.eq_setFault {i : Instr} {s t : State} (h : ExecTo s i t) (hs : s.fault = .none)
    (ht : t.fault ≠ .none) : t = s.setFault t.fault := by
  cases h with
  | addressFault | inputFault | illegalFault => rfl
  | _ => exact absurd hs ht

/-! Which instruction raises which cause; a decoded one never raises MEMORY. -/
section
variable {i : Instr} {s t : State} (h : ExecTo s i t) (hs : s.fault = .none)
include h hs

theorem ExecTo.fault_ne_memory (hwf : i.wellFormed = true) : t.fault ≠ .memory := by
  cases h with
  | addressFault ha hi => exact absurd hwf (not_wellFormed_of_address ha hi)
  | _ => simp [hs]

theorem ExecTo.fault_eq_inputEmpty_iff : t.fault = .inputEmpty ↔ i = .inp ∧ s.inq = [] := by
  cases h with
  | inp hq | inputFault hq => simp [hs, hq]
  | addressFault _ hi | illegalFault hi =>
    have hne : i ≠ .inp := by
      rintro rfl
      simp at hi
    simp [hne]
  | _ => simp [hs]

theorem ExecTo.fault_eq_illegal_iff :
    t.fault = .illegal ↔ ∃ a, i ∈ [Instr.illegal4xx a, .illegal900, .illegal9xx a] := by
  cases h with
  | illegalFault hi => exact ⟨fun _ => ⟨_, hi⟩, fun _ => rfl⟩
  | addressFault _ hi =>
    simp only [List.mem_cons, List.not_mem_nil, or_false] at hi
    rcases hi with rfl | rfl | rfl | rfl <;> simp
  | _ => simp [hs]

end

theorem ExecTo.loaded_eq {i : Instr} {s t : State} (h : ExecTo s i t) : t.loaded = s.loaded := by
  cases h <;> rfl

/-- No step changes the model's bit `loaded`: only a load does (log entry 4). -/
theorem step_loaded_eq {s t : State} (h : step s = .next t) : t.loaded = s.loaded := by
  obtain ⟨-, ⟨-, rfl⟩ | ⟨-, hexec⟩⟩ := step_cases h
  · rfl
  · exact (exec_eq_next_iff.1 hexec).loaded_eq

/-! ### When a step is taken -/

/-- A step is taken in the ready state and in no other (R94). -/
theorem exists_step_next_iff (s : State) : (∃ t, step s = .next t) ↔ s.status = .ready := by
  refine ⟨fun ⟨t, h⟩ => (step_cases h).1, fun hready => ?_⟩
  rcases Nat.lt_or_ge 99 s.pc with hp | hp
  · exact ⟨_, step_of_pc_outside hready hp⟩
  · rw [step_of_pc_inside hready hp]
    exact exec_next _ s

end Sys2Proof.Machine
end

section
/-! PROOFS. The step (40_fetch_decode.md): the ready gate, the fetch check, the illegal words, and the
whole cycle as numbers. -/

namespace Sys2Proof.Machine

/-! ### The gate and the fetch -/

/-- Settles O10. -/
theorem stepIsTakenExactlyWhenReady : Obligations.StepIsTakenExactlyWhenReady := by
  intro s hloaded
  simp [exists_step_next_iff, status_ready_iff, hloaded]

/-- Settles O8: the word at `pc` decodes to one instruction, the one the step runs. -/
theorem stepRunsTheDecodedInstruction : Obligations.StepRunsTheDecodedInstruction := by
  intro s i hready hp hdecode
  obtain ⟨_, rfl⟩ := decode_eq_ok_iff.1 hdecode
  exact step_of_pc_inside hready hp

/-- Settles O9: the fetch check fails, and the invariant bounds `pc` by 100. -/
theorem fetchOutsideTheStoreRaisesMemoryError : Obligations.FetchOutsideTheStoreRaisesMemoryError :=
  fun _ hready hp =>
    ⟨step_of_pc_outside hready hp, fun ⟨_, hle, _⟩ => Nat.le_antisymm hle hp⟩

/-! ### The illegal words -/

/-- Settles O23: the illegal rows are one case of `ExecTo`, and every illegal word decodes to one. -/
theorem illegalWordsRaiseIllegalInstruction : Obligations.IllegalWordsRaiseIllegalInstruction := by
  intro s
  refine ⟨fun _ => rfl, rfl, fun _ => rfl, fun w hw => ?_⟩
  obtain ⟨a, ha⟩ := (illegalWord_iff w).1 hw
  exact (ExecTo.illegalFault ha).exec_eq

/-- Settles O33. Outside the store the step is the fetch check's fault; inside, it is the decoded
instruction, which is well formed and so raises only its own two causes. -/
theorem faultCausesOfAStep : Obligations.FaultCausesOfAStep := by
  intro s t h
  obtain ⟨hready, hcase⟩ := step_cases h
  obtain ⟨-, hnone, -⟩ := (status_ready_iff s).1 hready
  rcases hcase with ⟨hp, rfl⟩ | ⟨hp, hexec⟩
  · have hout : ¬s.pc ≤ 99 := hp.not_ge
    simp [hp, hout, faultAddress, faultWord, FaultCause.code]
  · have hto := exec_eq_next_iff.1 hexec
    have hmemory := hto.fault_ne_memory hnone (decodeWord_wellFormed _)
    have hframe (hfault : t.fault ≠ .none) :
        faultAddress t = s.pc ∧ faultWord t = Memory.read s.mem s.pc := by
      rw [hto.eq_setFault hnone hfault]
      exact ⟨rfl, rfl⟩
    refine ⟨by simpa [hmemory] using hp, ?_, ?_, hframe, rfl, rfl, rfl, rfl⟩
    · rw [hto.fault_eq_inputEmpty_iff hnone, decodeWord_eq_inp_iff]
      exact (and_iff_right hp).symm
    · rw [hto.fault_eq_illegal_iff hnone, ← illegalWord_iff]
      exact (and_iff_right hp).symm

/-! ### The whole cycle -/

/-- ADD as the pseudocode writes it: the sum modulo 1000, and the flag (R100). -/
theorem exec_add_mod {a : Nat} (ha : a ≤ 99) (s : State) :
    ∃ v : Word,
      exec (.add a) s = .next { s with
        acc := v
        pflag := decide (s.acc.val + (Memory.read s.mem a).val ≤ 999)
        pc := s.pc + 1 } ∧
      v.val = (s.acc.val + (Memory.read s.mem a).val) % 1000 := by
  refine ⟨(aluAdd s.acc (Memory.read s.mem a)).1, ?_, ?_⟩
  · rw [(ExecTo.add (s := s) ha).exec_eq, aluAdd_flag]
    rfl
  · rw [aluAdd_val]
    split <;> omega

/-- SUB as the pseudocode writes it: the difference modulo 1000, and the flag (R101). -/
theorem exec_sub_mod {a : Nat} (ha : a ≤ 99) (s : State) :
    ∃ v : Word,
      exec (.sub a) s = .next { s with
        acc := v
        pflag := decide ((Memory.read s.mem a).val ≤ s.acc.val)
        pc := s.pc + 1 } ∧
      (v.val : Int) = ((s.acc.val : Int) - (Memory.read s.mem a).val) % 1000 := by
  refine ⟨(aluSub s.acc (Memory.read s.mem a)).1, ?_, ?_⟩
  · rw [(ExecTo.sub (s := s) ha).exec_eq, aluSub_flag]
    rfl
  · rw [aluSub_val]
    split <;> omega

/-- Under opcode 9 every operand but INP's and OUT's is illegal (R65, R93). -/
theorem exec_decodeNine_illegal {a : Nat} (hinp : a ≠ 1) (hout : a ≠ 2) (s : State) :
    exec (decodeNine a) s = .next (s.setFault .illegal) := by
  unfold decodeNine
  split
  case h_1 | h_4 => rfl
  case h_2 | h_3 => contradiction

/-- Settles O12: the fetch check, then one row of the pseudocode per opcode digit, and under opcode 9
one per operand. -/
theorem stepIsTheFetchDecodeExecuteCycle : Obligations.StepIsTheFetchDecodeExecuteCycle := by
  intro s hready w a m
  rcases Nat.lt_or_ge 99 s.pc with hp | hp
  · exact ⟨_, step_of_pc_outside hready hp, by rw [if_pos hp]; rfl⟩
  have hstep : step s = exec (decodeDigits (w / 100) a) s := step_of_pc_inside hready hp
  have hop : w / 100 ≤ 9 := opcodeOf_le _
  have ha : a ≤ 99 := operandOf_le _
  simp only [if_neg hp.not_gt]
  generalize w / 100 = op at hstep hop ⊢
  match op with
  | 0 => exact ⟨_, hstep.trans (ExecTo.hlt a).exec_eq, rfl⟩
  | 1 =>
    obtain ⟨v, hadd, hv⟩ := exec_add_mod ha s
    exact ⟨_, hstep.trans hadd, rfl, hv⟩
  | 2 =>
    obtain ⟨v, hsub, hv⟩ := exec_sub_mod ha s
    exact ⟨_, hstep.trans hsub, rfl, hv⟩
  | 3 => exact ⟨_, hstep.trans (ExecTo.sta ha).exec_eq, rfl, Memory.read_write s.mem a s.acc⟩
  | 4 => exact ⟨_, hstep, rfl⟩
  | 5 => exact ⟨_, hstep.trans (ExecTo.lda ha).exec_eq, rfl⟩
  | 6 => exact ⟨_, hstep.trans (ExecTo.bra a).exec_eq, rfl⟩
  | 7 => exact ⟨_, hstep.trans (ExecTo.brz a).exec_eq, rfl⟩
  | 8 => exact ⟨_, hstep.trans (ExecTo.brp a).exec_eq, rfl⟩
  | 9 =>
    replace hstep : step s = exec (decodeNine a) s := hstep
    by_cases hinp : a = 1
    · rw [hinp] at hstep
      simp only [if_pos hinp]
      cases hq : s.inq with
      | nil => exact ⟨_, hstep.trans (ExecTo.inputFault hq).exec_eq, by simp [State.setFault, hq]⟩
      | cons v rest => exact ⟨_, hstep.trans (ExecTo.inp hq).exec_eq, rfl⟩
    by_cases hout : a = 2
    · rw [hout] at hstep
      simp only [if_neg hinp, if_pos hout]
      exact ⟨_, hstep.trans ExecTo.out.exec_eq, rfl⟩
    · simp only [if_neg hinp, if_neg hout]
      exact ⟨_, hstep.trans (exec_decodeNine_illegal hinp hout s), rfl⟩

end Sys2Proof.Machine
end

section
/-! PROOFS. What the control instructions leave unchanged, and the control-flow summary (43_control.md,
44_halt_io.md). -/

namespace Sys2Proof.Machine

/-- Settles O27, by the cases of `ExecTo`: each names the one element it writes. -/
theorem branchHaltIllegalFrame : Obligations.BranchHaltIllegalFrame := by
  intro a i s t hi h
  cases exec_eq_next_iff.1 h with
  | hlt b | bra b | brz b | brp b => simp
  | add | sub | lda | sta | inp | out | inputFault => simp at hi
  | addressFault _ haddress =>
    simp only [List.mem_cons, List.not_mem_nil, or_false] at haddress
    rcases haddress with rfl | rfl | rfl | rfl <;> simp at hi
  | illegalFault hillegal =>
    simp only [List.mem_cons, List.not_mem_nil, or_false] at hillegal
    rcases hillegal with rfl | rfl | rfl <;> simp

/-- Settles O31, by the cases of `ExecTo`. The bounds check's fault, which would leave `pc`, needs an
operand that no well-formed instruction has. -/
theorem nextPcOfEveryInstruction : Obligations.NextPcOfEveryInstruction := by
  intro i s t hwf h
  cases exec_eq_next_iff.1 h with
  | hlt | add | sub | sta | lda | bra | brp | out => rfl
  | brz a => simp [Fin.val_eq_zero_iff]
  | inp hq | inputFault hq => simp [hq]
  | addressFault ha hi => exact absurd hwf (not_wellFormed_of_address ha hi)
  | illegalFault hi =>
    simp only [List.mem_cons, List.not_mem_nil, or_false] at hi
    rcases hi with rfl | rfl | rfl <;> rfl

end Sys2Proof.Machine
end

section
/-! PROOFS. The loop of `run()` and the engine's iterations of it (R96, 70_reset_and_hazards.md
section 2). -/

namespace Sys2Proof.Machine

/-! ### An iteration of each, on a core that steps and on one that has stopped -/

theorem runFor_succ_of_step {s t : State} (h : step s = .next t) (n : Nat) :
    runFor (n + 1) s = runFor n t := by
  simp [runFor, h]

/-- The loop of `run()` takes no step of a core that is not ready (R146). -/
theorem runFor_of_not_ready {s : State} (h : s.status ≠ .ready) (n : Nat) :
    runFor n s = (s, runReply s) := by
  cases n with
  | zero => rfl
  | succ n =>
    cases hstep : step s with
    | next t => exact absurd (step_cases hstep).1 h
    | fault | refused => simp [runFor, hstep]

theorem ticks_succ_of_step {s t : State} (h : step s = .next t) (n : Nat) :
    ticks (n + 1) ⟨s, true⟩ = ticks n ⟨t, decide (t.status = .ready)⟩ := by
  simp [ticks, tick, h]

theorem ticks_of_not_running (n : Nat) (s : State) : ticks n ⟨s, false⟩ = ⟨s, false⟩ := by
  induction n with
  | zero => rfl
  | succ n ih => exact ih

/-- A loaded core that is not ready has stopped, and `run()` answers (R175). -/
theorem runReply_isSome_of_stopped {s : State} (hloaded : s.loaded = true) (h : s.status ≠ .ready) :
    (runReply s).isSome = true := by
  unfold runReply
  split
  · rfl
  · rfl
  · contradiction
  · next hunloaded => simp [(status_unloaded_iff s).1 hunloaded] at hloaded

/-- Settles O54, by induction on the number of iterations: each is one step of both, and when the step
has stopped the core both stay where they are. -/
theorem engineIterationsFollowTheRunLoop : Obligations.EngineIterationsFollowTheRunLoop := by
  intro n
  induction n with
  | zero => exact fun s hready => by simp [ticks, runFor, runReply_of_ready hready]
  | succ n ih =>
    intro s hready
    obtain ⟨t, ht⟩ := (exists_step_next_iff s).2 hready
    rw [ticks_succ_of_step ht, runFor_succ_of_step ht]
    by_cases hstop : t.status = .ready
    · simp only [hstop, decide_true]
      exact ih t hstop
    · have hloaded : t.loaded = true := (step_loaded_eq ht).trans ((status_ready_iff s).1 hready).1
      have hreply := runReply_isSome_of_stopped hloaded hstop
      simpa [hstop, ticks_of_not_running, runFor_of_not_ready hstop] using hreply

end Sys2Proof.Machine
end

section
/-! PROOFS. ADD and SUB, what they and LDA leave unchanged, and that SUB undoes ADD (41_arithmetic.md,
42_load_store.md R110). -/

namespace Sys2Proof.Machine

/-! ### The results of ADD and SUB -/

/-- Settles O13: ADD's case of `ExecTo`, with the ALU's flag written as the spec's condition. -/
theorem addFoldsTheSumAndSetsTheFlag : Obligations.AddFoldsTheSumAndSetsTheFlag := by
  intro a s ha
  have hflag : (aluAdd s.acc (Memory.read s.mem a)).2 =
      if s.acc.val + (Memory.read s.mem a).val > 999 then false else true := by
    simp [aluAdd_flag, ← decide_not]
  exact ⟨_, hflag ▸ (ExecTo.add ha).exec_eq, aluAdd_val _ _⟩

/-- Settles O14: SUB's case of `ExecTo`; on the integers the difference is negative exactly when the
accumulator is less than the cell. -/
theorem subFoldsTheDifferenceAndSetsTheFlag : Obligations.SubFoldsTheDifferenceAndSetsTheFlag := by
  intro a s ha
  have hflag : (aluSub s.acc (Memory.read s.mem a)).2 =
      if (s.acc.val : Int) - (Memory.read s.mem a).val < 0 then false else true := by
    simp [aluSub_flag, ← decide_not]
  refine ⟨(aluSub s.acc (Memory.read s.mem a)).1, hflag ▸ (ExecTo.sub ha).exec_eq, ?_⟩
  simp only [aluSub_val, sub_neg, Nat.cast_lt]
  split <;> omega

/-! ### The frame of ADD, SUB and LDA -/

/-- Settles O25, by the cases of `ExecTo`: of those the three instructions have, only the bounds check's
fault writes the fault cause. -/
theorem addSubLdaFrame : Obligations.AddSubLdaFrame := by
  intro a i s t hi h
  cases exec_eq_next_iff.1 h with
  | add | sub | lda => simp
  | @addressFault b _ hout haddress =>
    have hab : a = b := by
      simp only [List.mem_cons, List.not_mem_nil, or_false] at hi
      rcases hi with rfl | rfl | rfl <;> simpa using haddress
    simp [hab, hout]
  | hlt | sta | bra | brz | brp | inp | out | inputFault => simp at hi
  | illegalFault hillegal =>
    simp only [List.mem_cons, List.not_mem_nil, or_false] at hillegal
    rcases hillegal with rfl | rfl | rfl <;> simp at hi

/-! ### ADD and then SUB -/

/-- The ALU's SUB undoes its ADD and answers the same flag: the sum exceeds 999 exactly when, folded, it
is less than the second operand. -/
theorem aluSub_aluAdd (x m : Word) : aluSub (aluAdd x m).1 m = (x, (aluAdd x m).2) := by
  have hsum := aluAdd_val x m
  refine Prod.ext (Fin.ext ?_) ?_
  · rw [aluSub_val]
    dsimp only
    split at hsum <;> split <;> omega
  · rw [aluSub_flag, aluAdd_flag, decide_eq_decide]
    split at hsum <;> omega

/-- Settles O34: ADD leaves the cell as it was, and the ALU's SUB undoes its ADD. -/
theorem subUndoesAdd : Obligations.SubUndoesAdd := by
  intro a s ha
  refine ⟨_, _, (ExecTo.add ha).exec_eq, (ExecTo.sub ha).exec_eq, ?_⟩
  simp [aluSub_aluAdd]

end Sys2Proof.Machine
end

section
/-! PROOFS. LDA and STA, what each does (42_load_store.md R110, R111). -/

namespace Sys2Proof.Machine

/-- Settles O16: STA's case of `ExecTo`; the memory it leaves is `Memory.write`, whose reads are those of
R42. -/
theorem staStoresTheAccumulator : Obligations.StaStoresTheAccumulator := by
  intro a s ha
  refine ⟨Memory.write s.mem a s.acc, (ExecTo.sta ha).exec_eq, ?_, fun b hb => ?_⟩
  · rw [Memory.read_write, if_pos rfl]
  · rw [Memory.read_write, if_neg hb]

/-- Settles O15: LDA's case of `ExecTo`, which writes `acc` and `pc` and leaves the flag. -/
theorem ldaLoadsTheCell : Obligations.LdaLoadsTheCell :=
  fun _ _ ha => (ExecTo.lda ha).exec_eq

end Sys2Proof.Machine
end

section
/-! PROOFS. The branches, what each does, and that a branch to itself never ends (43_control.md R120 to
R122). -/

namespace Sys2Proof.Machine

/-! ### BRA, BRZ and BRP -/

/-- Settles O17: BRA's case of `ExecTo`, which has no condition on the operand. -/
theorem braSetsThePc : Obligations.BraSetsThePc :=
  fun a _ => (ExecTo.bra a).exec_eq

/-- Settles O18: BRZ's case of `ExecTo`; the accumulator is the zero word exactly when its value is 0. -/
theorem brzBranchesOnZeroAccumulator : Obligations.BrzBranchesOnZeroAccumulator := by
  intro a s
  simp only [Fin.val_eq_zero_iff]
  exact (ExecTo.brz a).exec_eq

/-- Settles O19: BRP's case of `ExecTo`, which tests the flag. -/
theorem brpBranchesOnThePositiveFlag : Obligations.BrpBranchesOnThePositiveFlag :=
  fun a _ => (ExecTo.brp a).exec_eq

/-! ### A branch to itself -/

/-- The loop of `run()` goes on forever at a state whose step changes nothing. -/
theorem runFor_of_step_self {s : State} (h : step s = .next s) (n : Nat) : runFor n s = (s, none) := by
  induction n with
  | zero => rw [runFor, runReply_of_ready (step_cases h).1]
  | succ n ih => rw [runFor_succ_of_step h, ih]

/-- Settles O53: the word `600 + pc` decodes to BRA to `pc`, so the step writes `pc` with its own value,
and the loop is at a state whose step changes nothing. -/
theorem branchToItselfNeverEnds : Obligations.BranchToItselfNeverEnds := by
  intro s hready hp hword
  have hdecode : decodeWord (Memory.read s.mem s.pc) = .bra s.pc := decodeWord_of_digits (op := 6) hp hword
  have hself : step s = .next s :=
    calc step s
      _ = exec (decodeWord (Memory.read s.mem s.pc)) s := step_of_pc_inside hready hp
      _ = exec (.bra s.pc) s := by rw [hdecode]
      _ = .next s := braSetsThePc s.pc s
  exact ⟨hself, runFor_of_step_self hself⟩

end Sys2Proof.Machine
end

section
/-! PROOFS. INP, what it does with and without input, and what INP and OUT leave unchanged (44_halt_io.md
R131, R132). -/

namespace Sys2Proof.Machine

/-- Settles O21: INP's two cases of `ExecTo`, one for each form of the queue. -/
theorem inpTakesTheFrontOrFaults : Obligations.InpTakesTheFrontOrFaults :=
  fun _ => ⟨fun hempty => (ExecTo.inputFault hempty).exec_eq, fun _ _ hfront => (ExecTo.inp hfront).exec_eq⟩

/-- What INP can do: take the front of the queue and advance, or take the empty queue's fault (R131). -/
theorem exec_inp_cases {s t : State} (h : exec .inp s = .next t) :
    (∃ v rest, s.inq = v :: rest ∧ t = ((s.setAcc v).setInq rest).advance) ∨
      (s.inq = [] ∧ t = s.setFault .inputEmpty) := by
  cases exec_eq_next_iff.1 h with
  | inp hfront => exact .inl ⟨_, _, hfront, rfl⟩
  | inputFault hempty => exact .inr ⟨hempty, rfl⟩
  | addressFault _ hi | illegalFault hi => simp at hi

/-- Settles O28, by what INP can do and by the one thing OUT does. -/
theorem inpOutFrame : Obligations.InpOutFrame := by
  intro i s t hi h
  simp only [List.mem_cons, List.not_mem_nil, or_false] at hi
  rcases hi with rfl | rfl
  · rcases exec_inp_cases h with ⟨v, rest, hfront, rfl⟩ | ⟨hempty, rfl⟩
    · simp [hfront]
    · simp [hempty]
  · obtain rfl := Host.Outcome.next.inj (ExecTo.out.exec_eq.symm.trans h)
    simp

end Sys2Proof.Machine
end

section
/-! PROOFS. What taking a run-time fault leaves unchanged (60_exceptions.md R142). -/

namespace Sys2Proof.Machine

theorem FaultCause.code_of_ne_none {c : FaultCause} (h : c ≠ .none) :
    c.code = 1 ∨ c.code = 2 ∨ c.code = 3 := by
  cases c with
  | none => exact absurd rfl h
  | memory => exact .inl rfl
  | inputEmpty => exact .inr (.inl rfl)
  | illegal => exact .inr (.inr rfl)

/-- A fault is the only change of the step that raises it, in the fetch check or in the instruction
(R142). -/
theorem step_eq_setFault {s t : State} (h : step s = .next t) (ht : t.fault ≠ .none) :
    t = s.setFault t.fault := by
  obtain ⟨hready, ⟨-, rfl⟩ | ⟨-, hexec⟩⟩ := step_cases h
  · rfl
  · obtain ⟨-, hnone, -⟩ := (status_ready_iff s).1 hready
    exact (exec_eq_next_iff.1 hexec).eq_setFault hnone ht

/-- Settles O32: the step writes nothing but the cause, so `halted` is that of the ready core before it. -/
theorem faultingStepChangesOnlyTheFaultCause : Obligations.FaultingStepChangesOnlyTheFaultCause := by
  intro s t h ht
  have hset := step_eq_setFault h ht
  obtain ⟨-, -, hrunning⟩ := (status_ready_iff s).1 (step_cases h).1
  have hhalted : t.halted = false :=
    calc t.halted
      _ = (s.setFault t.fault).halted := congrArg State.halted hset
      _ = false := hrunning
  exact ⟨hset, hhalted, FaultCause.code_of_ne_none ht⟩

end Sys2Proof.Machine
end

section
/-! PROOFS. Which images `load_program` rejects, and that a rejected load changes nothing
(70_reset_and_hazards.md R170). -/

namespace Sys2Proof.Machine

theorem loadProgram_of_too_long {image : List Int} (hlen : 100 < image.length) (s : State) :
    loadProgram image s = (s, .loadError) :=
  if_pos hlen

theorem loadProgram_of_no_words {image : List Int} (hws : wordsOf? image = none) (s : State) :
    loadProgram image s = (s, .loadError) := by
  simp [loadProgram, hws]

/-- Settles O43: either fault of an image ends the load before it writes, and an image with neither is
at most 100 words. -/
theorem loadRejectsBadImagesAtomically : Obligations.LoadRejectsBadImagesAtomically := by
  intro image s
  constructor
  · rintro (hlong | hbad)
    · exact loadProgram_of_too_long hlong s
    · exact loadProgram_of_no_words (wordsOf?_eq_none_of_bad hbad) s
  · intro hgood
    have hlen : image.length ≤ 100 := Nat.not_lt.1 fun hlong => hgood (.inl hlong)
    have hrange : ∀ v ∈ image, 0 ≤ v ∧ v ≤ 999 := by
      intro v hv
      have hnot : ¬(v < 0 ∨ 999 < v) := fun hbad => hgood (.inr ⟨v, hv, hbad⟩)
      omega
    obtain ⟨ws, hws, -⟩ := exists_wordsOf?_of_range hrange
    rw [loadProgram_of_words hlen hws s]

end Sys2Proof.Machine
end

section
/-! SUPPORT. A step of a core that has stopped, and everything a move of the host and an iteration of the
loop of `run()` can do (70_reset_and_hazards.md sections 1 and 2); later proofs go through these cases and do
not unfold the operations. -/

namespace Sys2Proof.Machine

/-! ### A core that takes no step -/

theorem step_of_unloaded {s : State} (h : s.status = .unloaded) : step s = .refused .unloaded := by
  rw [step, whenReady, h]

theorem step_of_halted {s : State} (h : s.status = .halted) : step s = .fault .haltedCore := by
  rw [step, whenReady, h]

theorem step_of_faulted {s : State} {c : FaultCause} (h : s.status = .faulted c) :
    step s = .fault (.faultedCore c) := by
  rw [step, whenReady, h]

/-! ### The host's moves -/

theorem wordsOf?_length {vs : List Int} {ws : List Word} (h : wordsOf? vs = some ws) :
    ws.length = vs.length := by
  rw [wordsOf?_eq_some h, List.length_map]

theorem startRun_cases {e e' : Engine} {r : HostReply} (hidle : e.running = false)
    (h : startRun e = .next (e', r)) :
    r ≠ .loaded ∧ e'.core = e.core ∧ (e'.running = true → e.core.status = .ready) := by
  unfold startRun at h
  split at h
  case h_1 hready => cases h; exact ⟨nofun, rfl, fun _ => hready⟩
  case h_2 | h_3 => cases h; exact ⟨nofun, rfl, by simp [hidle]⟩
  case h_4 => cases h

/-- The answered moves of the host: a successful load, a new input queue, or a move that leaves the core
as it is and starts a run on a ready one at most (R170 to R176). -/
theorem hostAct_cases {x : HostAction} {e e' : Engine} {r : HostReply} (h : hostAct x e = .next (e', r)) :
    (∃ ws : List Word, ws.length ≤ 100 ∧ r = .loaded ∧ e' = ⟨loadedState ws e.core, false⟩) ∨
    (∃ ws, e' = ⟨e.core.setInq ws, false⟩) ∨
    (r ≠ .loaded ∧ e'.core = e.core ∧ (e'.running = true → e.core.status = .ready)) := by
  unfold hostAct at h
  split at h
  · cases h
  · next hidle =>
    cases x with
    | loadProgram image =>
      obtain ⟨rfl, rfl⟩ := Prod.mk.inj (Host.Outcome.next.inj h)
      rcases loadProgram_cases image e.core with hbad | ⟨ws, hlen, hws, hgood⟩
      · exact .inr (.inr (by simp [hbad]))
      · exact .inl ⟨ws, (wordsOf?_length hws).trans_le hlen, by simp [hgood]⟩
    | setInput values =>
      obtain ⟨rfl, rfl⟩ := Prod.mk.inj (Host.Outcome.next.inj h)
      rcases setInput_cases values e.core with hbad | ⟨ws, -, hgood⟩
      · exact .inr (.inr (by simp [hbad]))
      · exact .inr (.inl ⟨ws, by rw [hgood]⟩)
    | run => exact .inr (.inr (startRun_cases (eq_false_of_ne_true hidle) h))
    | readState =>
      cases h
      exact .inr (.inr ⟨nofun, rfl, fun hrunning => absurd hrunning hidle⟩)

/-! ### The iteration of the loop -/

/-- An iteration of the loop takes one step of the core, or leaves the core and no run in progress
(R96, R175). -/
theorem tick_cases (e : Engine) :
    (∃ t, step e.core = .next t ∧ (tick e).1 = ⟨t, decide (t.status = .ready)⟩) ∨
      (tick e).1 = ⟨e.core, false⟩ := by
  obtain ⟨s, running⟩ := e
  cases running with
  | false => exact .inr rfl
  | true =>
    cases hstep : step s with
    | next t => exact .inl ⟨t, rfl, by simp [tick, hstep]⟩
    | fault | refused => exact .inr (by simp [tick, hstep])

end Sys2Proof.Machine
end

section
/-! PROOFS. The invariant of the core: every step keeps it (10_state.md R21, 60_exceptions.md R141), and
a load establishes it from any state. -/

namespace Sys2Proof.Machine

/-! ### The Memory Store and the program counter -/

theorem ExecTo.mem_wf {i : Instr} {s t : State} (h : ExecTo s i t) (hs : Memory.wf s.mem) :
    Memory.wf t.mem := by
  cases h with
  | sta ha => exact Memory.write_wf hs ha
  | _ => exact hs

theorem step_mem_wf {s t : State} (h : step s = .next t) (hs : Memory.wf s.mem) : Memory.wf t.mem := by
  obtain ⟨-, ⟨-, rfl⟩ | ⟨-, hexec⟩⟩ := step_cases h
  · exact hs
  · exact (exec_eq_next_iff.1 hexec).mem_wf hs

/-- From a `pc` in the store, a well-formed instruction leads to one at most 100: `pc` stays, moves on by
one, or becomes a two-digit branch target (R21, R22). -/
theorem ExecTo.pc_le {i : Instr} {s t : State} (h : ExecTo s i t) (hwf : i.wellFormed = true)
    (hp : s.pc ≤ 99) : t.pc ≤ 100 := by
  cases h with
  | bra a => exact ((twoDigits_iff a).1 hwf).trans (by decide)
  | brz a | brp a =>
    have ha : a ≤ 99 := (twoDigits_iff a).1 hwf
    rw [State.setPc_pc]
    split <;> omega
  | add | sub | lda | sta | inp | out => exact Nat.succ_le_succ hp
  | hlt | addressFault | inputFault | illegalFault => exact hp.trans (by decide)

theorem step_pc_le {s t : State} (h : step s = .next t) (hp : s.pc ≤ 100) : t.pc ≤ 100 := by
  obtain ⟨-, ⟨-, rfl⟩ | ⟨hin, hexec⟩⟩ := step_cases h
  · exact hp
  · exact (exec_eq_next_iff.1 hexec).pc_le (decodeWord_wellFormed _) hin

/-! ### The record of the stop -/

theorem word_le_of_decodeWord_eq_hlt {w : Word} {a : Nat} (h : decodeWord w = .hlt a) : w.val ≤ 99 := by
  have hwf := decodeWord_wellFormed w
  have hval := encode_decodeWord w
  rw [h] at hwf hval
  have ha : a ≤ 99 := (twoDigits_iff a).1 hwf
  simp only [encode] at hval
  omega

theorem ExecTo.eq_hlt_of_halted {i : Instr} {s t : State} (h : ExecTo s i t) (hs : s.halted = false)
    (ht : t.halted = true) : ∃ a, i = .hlt a ∧ t = s.setHalted true := by
  cases h with
  | hlt a => exact ⟨a, rfl, rfl⟩
  | _ => exact absurd (hs.symm.trans ht) Bool.false_ne_true

/-- A step that halts ran an HLT, and left `pc` at it without a fault (R130, decision D7). -/
theorem step_halted {s t : State} (h : step s = .next t) (ht : t.halted = true) :
    t.fault = .none ∧ t.pc ≤ 99 ∧ (faultWord t).val ≤ 99 := by
  obtain ⟨hready, hcase⟩ := step_cases h
  obtain ⟨-, hnone, hrunning⟩ := (status_ready_iff s).1 hready
  rcases hcase with ⟨-, rfl⟩ | ⟨hp, hexec⟩
  · exact absurd (hrunning.symm.trans ht) Bool.false_ne_true
  · obtain ⟨a, hdecode, rfl⟩ := (exec_eq_next_iff.1 hexec).eq_hlt_of_halted hrunning ht
    exact ⟨hnone, hp, word_le_of_decodeWord_eq_hlt hdecode⟩

/-- Why the core stopped can be read from the state after the step, since neither a fault nor a halt
moves `pc` or writes a cell. -/
theorem step_stopRecord {s t : State} (h : step s = .next t) (hp : s.pc ≤ 100) : t.stopRecord := by
  obtain ⟨hmemory, hinput, hillegal, hframe, -⟩ := faultCausesOfAStep s t h
  refine ⟨fun hf => ?_, fun hf => ?_, fun hf => ?_, fun _ ht => step_halted h ht⟩
  all_goals obtain ⟨haddress, hword⟩ := hframe (by simp [hf])
  · have hout := hmemory.1 hf
    exact haddress.trans (by omega)
  · obtain ⟨hin, hinp, -⟩ := hinput.1 hf
    exact ⟨haddress.trans_le hin, hword ▸ hinp⟩
  · obtain ⟨hin, hbad⟩ := hillegal.1 hf
    exact ⟨haddress.trans_le hin, hword ▸ hbad⟩

/-- Settles O37, part by part of the invariant; a core that steps is loaded. -/
theorem stepKeepsTheInvariant : Obligations.StepKeepsTheInvariant := by
  rintro s t ⟨hwf, hp, -, -⟩ h
  obtain ⟨hloaded, -⟩ := (status_ready_iff s).1 (step_cases h).1
  have hstays : t.loaded = true := (step_loaded_eq h).trans hloaded
  exact ⟨step_mem_wf h hwf, step_pc_le h hp, fun hun => absurd (hun.symm.trans hstays) Bool.false_ne_true,
    step_stopRecord h hp⟩

/-! ### Before the first step: construction, load and reset -/

theorem constructed_inv : State.constructed.Inv :=
  ⟨Memory.wf_nil, Nat.le_of_lt_succ Config.constructedPc.isLt, fun _ => rfl, nofun, nofun, nofun, nofun⟩

/-- What a load leaves meets the invariant, whatever the state before (R171). -/
theorem loadedState_inv {ws : List Word} (hlen : ws.length ≤ 100) (s : State) : (loadedState ws s).Inv :=
  ⟨placeImage_wf hlen, Nat.zero_le _, fun _ => rfl, nofun, nofun, nofun, nofun⟩

/-- Settles O45: the load that succeeds leaves `loadedState` of an image that fits the store. -/
theorem loadEstablishesTheInvariant : Obligations.LoadEstablishesTheInvariant := by
  intro image s t h
  rcases loadProgram_cases image s with hbad | ⟨ws, hlen, hws, hgood⟩
  · exact absurd (hbad.symm.trans h) (by simp)
  · obtain rfl : loadedState ws s = t := congrArg Prod.fst (hgood.symm.trans h)
    exact loadedState_inv ((wordsOf?_length hws).trans_le hlen) s

/-- Settles O41: the empty image is no words, and reset memory lists nothing. -/
theorem resetIsTheLoadOfAnEmptyImage : Obligations.ResetIsTheLoadOfAnEmptyImage :=
  ⟨rfl, rfl, rfl, rfl, rfl, rfl, rfl, rfl, rfl, Memory.read_nil⟩

/-- Settles O38: reset is a load, and a load establishes the invariant. -/
theorem resetMeetsTheInvariant : Obligations.ResetMeetsTheInvariant := by
  obtain ⟨hload, -⟩ := resetIsTheLoadOfAnEmptyImage
  exact loadEstablishesTheInvariant [] State.constructed State.reset hload

end Sys2Proof.Machine
end

section
/-! PROOFS. What the host can do and read before, between and after runs (70_reset_and_hazards.md sections
1 and 2, 60_exceptions.md section 4). -/

namespace Sys2Proof.Machine

/-! ### A core that takes no step -/

/-- Settles O11: each clause is one status, and each status but ready one stop. -/
theorem stoppedCoreTakesNoStep : Obligations.StoppedCoreTakesNoStep := by
  intro s
  refine ⟨fun hun => ?_, fun hloaded hfault => ?_, fun hloaded hnone hhalted => ?_,
    fun hloaded hnone hrunning => (status_ready_iff s).2 ⟨hloaded, hnone, hrunning⟩⟩
  · have hstatus := (status_unloaded_iff s).2 hun
    exact ⟨hstatus, step_of_unloaded hstatus⟩
  · have hstatus := (status_faulted_iff s s.fault).2 ⟨hloaded, rfl, hfault⟩
    exact ⟨hstatus, step_of_faulted hstatus⟩
  · have hstatus := (status_halted_iff s).2 ⟨hloaded, hnone, hhalted⟩
    exact ⟨hstatus, step_of_halted hstatus⟩

/-- Settles O42: a fresh core is not loaded, and its memory lists nothing. -/
theorem freshEngineIsUnloaded : Obligations.FreshEngineIsUnloaded := by
  obtain ⟨hunloaded, -⟩ := stoppedCoreTakesNoStep State.constructed
  exact ⟨Memory.read_nil, rfl, rfl, hunloaded rfl⟩

/-! ### The host's moves -/

/-- Settles O47. -/
theorem hostHasNoMoveDuringARun : Obligations.HostHasNoMoveDuringARun :=
  fun _ _ hrunning => if_pos hrunning

/-- With no run in progress the host's `run` is `startRun` (R175). -/
theorem hostAct_run_of_idle (s : State) : hostAct .run ⟨s, false⟩ = startRun ⟨s, false⟩ := rfl

/-- Settles O48, a clause for each case of `startRun`. -/
theorem runBeginsOnlyOnAReadyCore : Obligations.RunBeginsOnlyOnAReadyCore := by
  intro s
  rw [hostAct_run_of_idle]
  refine ⟨fun h => ?_, fun h => ?_, fun c h => ?_, fun h => ?_⟩ <;> simp only [startRun, h]

/-- Settles O49. -/
theorem hostReadsTheWholeState : Obligations.HostReadsTheWholeState :=
  fun _ => rfl

end Sys2Proof.Machine
end

section
/-! PROOFS. The invariant of the engine, kept by every move of the host and every iteration of the loop of
`run()`, and so met by every reachable engine (70_reset_and_hazards.md sections 1 and 2). -/

namespace Sys2Proof.Machine

/-- The invariant does not speak of the input queue. -/
theorem setInq_inv {s : State} (h : s.Inv) (q : List Word) : (s.setInq q).Inv := h

theorem hostAct_inv {x : HostAction} {e e' : Engine} {r : HostReply} (he : e.Inv)
    (h : hostAct x e = .next (e', r)) : e'.Inv := by
  obtain ⟨hcore, -⟩ := he
  rcases hostAct_cases h with ⟨ws, hlen, -, rfl⟩ | ⟨ws, rfl⟩ | ⟨-, hsame, hready⟩
  · exact ⟨loadedState_inv hlen e.core, nofun⟩
  · exact ⟨setInq_inv hcore ws, nofun⟩
  · exact ⟨hsame ▸ hcore, hsame ▸ hready⟩

theorem tick_inv {e : Engine} (he : e.Inv) : (tick e).1.Inv := by
  obtain ⟨hcore, -⟩ := he
  rcases tick_cases e with ⟨t, hstep, htick⟩ | htick <;> rw [htick]
  · exact ⟨stepKeepsTheInvariant e.core t hcore hstep, of_decide_eq_true⟩
  · exact ⟨hcore, nofun⟩

/-- Settles O56: a load establishes the core's invariant, a step keeps it, and every other move leaves
what it speaks of. -/
theorem engineMovesKeepTheInvariant : Obligations.EngineMovesKeepTheInvariant :=
  fun _ he => ⟨fun _ _ _ h => hostAct_inv he h, tick_inv he⟩

/-- Settles O57. -/
theorem freshEngineMeetsTheInvariant : Obligations.FreshEngineMeetsTheInvariant :=
  ⟨constructed_inv, nofun⟩

/-- Settles O55, by induction on how the engine is reached. -/
theorem reachableEnginesMeetTheInvariant : Obligations.ReachableEnginesMeetTheInvariant := by
  intro e h
  induction h with
  | constructed => exact freshEngineMeetsTheInvariant
  | hostMove x _ hx ih => exact hostAct_inv ih hx
  | runTick _ ih => exact tick_inv ih

end Sys2Proof.Machine
end

section
/-! PROOFS. How a run ends, and what a stopped core stays in (60_exceptions.md sections 4 and 5). -/

namespace Sys2Proof.Machine

/-! ### The stopped core -/

/-- Settles O50: a stopped core takes no step, and the host's only move that writes its status is a
load. -/
theorem onlyALoadLeavesAStoppedState : Obligations.OnlyALoadLeavesAStoppedState := by
  intro e hstopped
  have hnotReady : e.core.status ≠ .ready := by
    rcases hstopped with h | ⟨c, h⟩ <;> simp [h]
  refine ⟨?_, fun x e' r h hr => ?_⟩
  · rcases tick_cases e with ⟨t, hstep, -⟩ | htick
    · exact absurd (step_cases hstep).1 hnotReady
    · rw [htick]
  · rcases hostAct_cases h with ⟨-, -, hloaded, -⟩ | ⟨ws, rfl⟩ | ⟨-, hsame, -⟩
    · exact absurd hloaded hr
    · rfl
    · rw [hsame]

/-! ### The end of a run -/

/-- A step that stops the core leaves a halt without a fault or a fault without a halt, and `run()`
answers accordingly (R142, R147, R175). -/
theorem runReply_of_step_stopped {s t : State} (h : step s = .next t) (hstop : t.status ≠ .ready) :
    (runReply t = some (.outputs t.outq) ∧ t.halted = true ∧ t.fault = .none) ∨
      (runReply t = some (.runError t.fault) ∧ t.fault ≠ .none ∧ t.halted = false) := by
  have hloaded : t.loaded = true := (step_loaded_eq h).trans ((status_ready_iff s).1 (step_cases h).1).1
  by_cases hfault : t.fault = .none
  · have hhalted : t.halted = true := by simpa [status_ready_iff, hloaded, hfault] using hstop
    have hstatus := (status_halted_iff t).2 ⟨hloaded, hfault, hhalted⟩
    exact .inl ⟨by simp [runReply, hstatus], hhalted, hfault⟩
  · have hstatus := (status_faulted_iff t t.fault).2 ⟨hloaded, rfl, hfault⟩
    obtain ⟨-, hrunning, -⟩ := faultingStepChangesOnlyTheFaultCause s t h hfault
    exact .inr ⟨by simp [runReply, hstatus], hfault, hrunning⟩

/-- Settles O51, by induction on the number of steps: the first step that stops the core ends the loop. -/
theorem runEndsByHaltOrByFault : Obligations.RunEndsByHaltOrByFault := by
  intro n
  induction n with
  | zero =>
    rintro s t r hready ⟨⟩
    exact .inl ⟨runReply_of_ready hready, hready⟩
  | succ n ih =>
    intro s t r hready h
    obtain ⟨u, hu⟩ := (exists_step_next_iff s).2 hready
    rw [runFor_succ_of_step hu] at h
    by_cases hstop : u.status = .ready
    · exact ih u t r hstop h
    · rw [runFor_of_not_ready hstop] at h
      cases h
      exact .inr (runReply_of_step_stopped hu hstop)

/-- Settles O52, by induction on the number of steps: a core that is not ready answers the same for every
number, and a ready one takes the same first step. -/
theorem anEndedRunStaysEnded : Obligations.AnEndedRunStaysEnded := by
  intro n k
  induction n with
  | zero =>
    intro s t r h
    have hstop : s.status ≠ .ready := by
      intro hready
      simp [runFor, runReply_of_ready hready] at h
    rwa [runFor_of_not_ready hstop] at h ⊢
  | succ n ih =>
    intro s t r h
    by_cases hready : s.status = .ready
    · obtain ⟨u, hu⟩ := (exists_step_next_iff s).2 hready
      rw [runFor_succ_of_step hu] at h
      rw [Nat.add_right_comm, runFor_succ_of_step hu]
      exact ih u t r h
    · rwa [runFor_of_not_ready hready] at h ⊢

end Sys2Proof.Machine
end

section
/-! PROOFS. A canonical memory is its cells' values (log entry 2). -/

namespace Sys2Proof.Machine

/-- In a memory with rising addresses every entry is what its address reads. -/
theorem Memory.read_of_mem {m : Memory} (hsorted : m.Pairwise fun p q => p.1 < q.1) {a : Nat} {v : Word}
    (h : (a, v) ∈ m) : Memory.read m a = v := by
  induction m with
  | nil => simp at h
  | cons p m ih =>
    obtain ⟨b, u⟩ := p
    obtain ⟨hlow, hrest⟩ := List.pairwise_cons.1 hsorted
    rw [Memory.read_cons]
    rcases List.mem_cons.1 h with hhead | htail
    · obtain ⟨rfl, rfl⟩ := Prod.mk.inj hhead
      exact if_pos rfl
    · rw [if_neg (hlow _ htail).ne', ih hrest htail]

/-- Only a listed cell can read other than 0. -/
theorem Memory.mem_of_read_ne_zero {m : Memory} {a : Nat} (h : Memory.read m a ≠ 0) :
    (a, Memory.read m a) ∈ m := by
  induction m with
  | nil => exact absurd (Memory.read_nil a) h
  | cons p m ih =>
    obtain ⟨b, u⟩ := p
    rw [Memory.read_cons] at h ⊢
    split at h
    · next hab => simp [hab]
    · next hab =>
      rw [if_neg hab]
      exact List.mem_cons_of_mem _ (ih h)

theorem Memory.subset_of_read_eq {m m' : Memory} (hm : Memory.wf m)
    (hread : ∀ a, a ≤ 99 → Memory.read m a = Memory.read m' a) : m ⊆ m' := by
  intro (a, v) hmem
  obtain ⟨hsorted, hentries⟩ := hm
  obtain ⟨ha, hv⟩ := hentries _ hmem
  have hread' : Memory.read m' a = v := (hread a ha).symm.trans (Memory.read_of_mem hsorted hmem)
  rw [← hread'] at hv ⊢
  exact Memory.mem_of_read_ne_zero hv

/-- Settles O36: the memories list the same entries, and in one order only. -/
theorem memoriesThatReadTheSameAreEqual : Obligations.MemoriesThatReadTheSameAreEqual := by
  intro m m' hm hm' hread
  have hasymm : Std.Asymm fun p q : Nat × Word => p.1 < q.1 := ⟨fun _ _ => Nat.lt_asymm⟩
  exact List.Subset.antisymm_of_pairwise hm.1 hm'.1 (Memory.subset_of_read_eq hm hread)
    (Memory.subset_of_read_eq hm' fun a ha => (hread a ha).symm)

end Sys2Proof.Machine
end

section
/-! PROOFS. The spec's decode vectors (95_test_vectors.md section 2.1). -/

namespace Sys2Proof

/-- Settles O7: each vector's word is its opcode digit and its two operand digits. -/
theorem decodeVectorsOfTheSpec : Obligations.DecodeVectorsOfTheSpec :=
  ⟨rfl, rfl, rfl, rfl, rfl, rfl, rfl, rfl, rfl, rfl, rfl, rfl, rfl, rfl⟩

end Sys2Proof
end

section
/-! PROOFS. OUT, what it does (44_halt_io.md R132). -/

namespace Sys2Proof.Machine

/-- Settles O22: OUT's one case of `ExecTo`, whatever the queue. -/
theorem outAppendsTheAccumulator : Obligations.OutAppendsTheAccumulator :=
  fun _ => ExecTo.out.exec_eq

end Sys2Proof.Machine
end
